-- ==== Sys2Proof/Word.lean ====
section
/-! DEFINITION. The word types of the block and the two small name types of the spec (symbols and command names). -/

namespace Sys2Proof

/-- Format TS (R51): a timestamp, and an elapsed interval, in microseconds. -/
abbrev Timestamp := BitVec 32

/-- Format CW (R55): a command, a slot of the ring buffer, and the accumulator. -/
abbrev Cmd := BitVec 16

/-- A slot index (R16, R17): `head`, `tail`; seven bits, so that advancing past 127 gives 0 (R32). -/
abbrev Index := BitVec 7

/-- The bit counter `cnt` (R14): five bits, so that the 16 inside an EDGE can be held. -/
abbrev Count := BitVec 5

/-- One byte of the model's memory list. -/
abbrev Byte := BitVec 8

/-- The class of one elapsed interval (R52). -/
inductive Symbol where
  | zero
  | one
  | frameStart
  deriving DecidableEq, Repr

/-- The names of the seven known command codes (R60). -/
inductive CmdName where
  | onOff
  | up
  | down
  | mute
  | left
  | right
  | av
  deriving DecidableEq, Repr

end Sys2Proof
end

