-- ==== Sys2Proof/Config.lean ====
section
/-! DEFINITION. What is fixed for the machine (R6) and the free values: the values the spec leaves open, which no proof can see. -/

namespace Sys2Proof

/-- `T_ONE` (R6): the lower bound of symbol ONE. -/
def Config.tOne : Timestamp := 1500#32

/-- `T_START` (R6): the lower bound of symbol FRAME-START. -/
def Config.tStart : Timestamp := 2500#32

/-- `FRAME_BITS` (R6): the value of `cnt` at which a frame is complete. -/
def Config.frameBits : Count := 16#5

/-- `C` (R6): the number of slots. -/
def Config.slots : Nat := 128

/-- `USABLE` (R6, R80): the largest number of unread commands. -/
def Config.usable : Nat := 127

/-- The byte addresses of the model's memory list: two bytes to a slot (R31 leaves this to the model; log entry 10). -/
def Config.memBytes : Nat := 256

/-- The reset value of `last` (R25, decision D5; 93_implementation_defined.md U10 asks for a named constant, log entry 13). -/
def Config.lastAtReset : Timestamp := 0#32

/-- FREE VALUE: what a slot holds that no PUSH has written since power-up (R25, U2): one value per slot,
fixed until the slot is written (log entry 5). -/
opaque Config.powerUpSlot : Index → Cmd

/-- FREE VALUE: what `pop_data` shows in a clock in which `available` is 0 (R54, U11; log entry 6). -/
opaque Config.idlePopData : Nat → Cmd

/-- FREE VALUE: what `cmd_data` shows in a clock in which `cmd_valid` is 0 (R117, U11; log entry 6). -/
opaque Config.idleCmdData : Nat → Cmd

end Sys2Proof
end

