-- ==== Sys2Proof/Syntax.lean ====
section
/-! DEFINITION. The instructions: one constructor for each row of spec/opcode_table.json (the operations of R58 and the
seven known command codes of R60), in the table's order. -/

namespace Sys2Proof

/-- The rows of the operation table. The three symbol rows carry the elapsed interval that selects them (R52). -/
inductive Instr where
  /-- RESET (R110). -/
  | reset
  /-- IDLE (R121). -/
  | idle
  /-- AVAIL (R77). -/
  | avail
  /-- POP (R75). -/
  | pop
  /-- EDGE `ts` (R92). -/
  | edge (ts : Timestamp)
  /-- EDGE_POP `ts` (R120). -/
  | edgePop (ts : Timestamp)
  /-- SYM.ZERO (R93), selected by the elapsed interval `e`. -/
  | symZero (e : Timestamp)
  /-- SYM.ONE (R94), selected by the elapsed interval `e`. -/
  | symOne (e : Timestamp)
  /-- SYM.START (R95), selected by the elapsed interval `e`. -/
  | symStart (e : Timestamp)
  /-- EMIT (R96). -/
  | emit
  /-- PUSH `v` (R73). -/
  | push (v : Cmd)
  /-- INIT (R71). -/
  | init
  /-- NOTIFY `falling, ts` (R113). -/
  | notify (falling : Bool) (ts : Timestamp)
  /-- LOOKUP `c` (R118). -/
  | lookup (c : Cmd)
  /-- CMD.ON_OFF (R60). -/
  | cmdOnOff
  /-- CMD.UP (R60). -/
  | cmdUp
  /-- CMD.DOWN (R60). -/
  | cmdDown
  /-- CMD.MUTE (R60). -/
  | cmdMute
  /-- CMD.LEFT (R60). -/
  | cmdLeft
  /-- CMD.RIGHT (R60). -/
  | cmdRight
  /-- CMD.AV (R60). -/
  | cmdAv
  deriving DecidableEq, Repr

end Sys2Proof
end

