-- ==== Sys2Proof/Decode.lean ====
section
/-! DEFINITION. The formats of R50 as words, the decoder (total, rejecting by name) and the encoder. -/

namespace Sys2Proof

/-- The way a word reaches the block or one of its parts: the spec's formats (R50), with the 16-bit format CW told apart by
what takes it, since R58 selects those operations by a call and not by a bit pattern (DESIGN CHOICE, log entry 3). -/
inductive Lane where
  /-- The input word IW of one clock, 35 bits (R53). -/
  | clock
  /-- IW as the notification wiring in front of the producer port carries it, 35 bits (R113). -/
  | notify
  /-- The output word OW looked at, 17 bits (R54, R77). -/
  | look
  /-- An elapsed interval, format SYM, 32 bits (R52). -/
  | symbol
  /-- The bit counter at the end of an EDGE, 5 bits (R96). -/
  | count
  /-- A command word on its way into the ring buffer, 16 bits (R73). -/
  | value
  /-- A command word handed to the lookup function, 16 bits (R118). -/
  | name
  /-- A known command code, 16 bits (R60). -/
  | code
  /-- INIT, which has no bits (R71). -/
  | init
  deriving DecidableEq, Repr

/-- One word as the environment presents it: its lane, and its bits (bit 0 least significant, R7) in five bytes. -/
structure OpWord where
  lane : Lane
  bits : BitVec 40
  deriving DecidableEq, Repr

/-- Why a word is no operation. Every word of lane `clock` within its 35 bits is one (R59). -/
inductive DecodeError where
  /-- A bit is set above the width of the word's format. -/
  | tooWide
  /-- Lane `count`: EMIT is selected by the value 16 alone (R96). -/
  | notCountSixteen
  /-- Lane `code`: the value is none of the seven of R60. -/
  | unknownCode
  /-- Lane `notify`: bit 34 or bit 32 is set, so the word is no notification (R113). -/
  | notNotification
  deriving DecidableEq, Repr

/-- The width of each format in bits (R50; the table's `width`). -/
def Lane.width : Lane → Nat
  | .clock => 35
  | .notify => 35
  | .look => 17
  | .symbol => 32
  | .count => 5
  | .value => 16
  | .name => 16
  | .code => 16
  | .init => 0

/-- `edge_ts`, bits 31..0 of IW (R53). -/
def tsField (b : BitVec 40) : Timestamp := b.extractLsb' 0 32

/-- Bits 15..0, format CW (R55). -/
def cmdField (b : BitVec 40) : Cmd := b.extractLsb' 0 16

/-- `rst`, bit 34 of IW (R53). -/
def rstBit (b : BitVec 40) : Bool := b.getLsbD 34

/-- `edge_valid`, bit 33 of IW (R53); the direction `f` of a notification (R113). -/
def edgeBit (b : BitVec 40) : Bool := b.getLsbD 33

/-- `pop`, bit 32 of IW (R53). -/
def popBit (b : BitVec 40) : Bool := b.getLsbD 32

/-- The five cases of the top three bits of IW (R53). -/
def decodeClock (b : BitVec 40) : Instr :=
  if rstBit b then .reset
  else match edgeBit b, popBit b with
    | false, false => .idle
    | false, true => .pop
    | true, false => .edge (tsField b)
    | true, true => .edgePop (tsField b)

/-- The notification word: match 0, mask 0x500000000, `f` in bit 33, `ts` in bits 31..0 (R113 and its row). -/
def decodeNotify (b : BitVec 40) : Except DecodeError Instr :=
  if rstBit b || popBit b then .error .notNotification
  else .ok (.notify (edgeBit b) (tsField b))

/-- The symbol of an elapsed interval (R52): closed below, open above, unsigned. -/
def symbolOf (e : Timestamp) : Symbol :=
  if e < Config.tOne then .zero
  else if e < Config.tStart then .one
  else .frameStart

/-- The arm of EDGE an elapsed interval selects (R52, R93, R94, R95). -/
def decodeSymbol (e : Timestamp) : Instr :=
  match symbolOf e with
  | .zero => .symZero e
  | .one => .symOne e
  | .frameStart => .symStart e

/-- The command code of each name (R60). -/
def codeOf : CmdName → Cmd
  | .onOff => 57920#16
  | .up => 57928#16
  | .down => 57936#16
  | .mute => 57932#16
  | .left => 57940#16
  | .right => 57924#16
  | .av => 57948#16

/-- The instruction that stands for each known command code (R60). -/
def instrOfName : CmdName → Instr
  | .onOff => .cmdOnOff
  | .up => .cmdUp
  | .down => .cmdDown
  | .mute => .cmdMute
  | .left => .cmdLeft
  | .right => .cmdRight
  | .av => .cmdAv

/-- The name of a command word, absent for the 65529 values that are not in the table (R118). -/
def nameOf (c : Cmd) : Option CmdName :=
  if c = 57920#16 then some .onOff
  else if c = 57928#16 then some .up
  else if c = 57936#16 then some .down
  else if c = 57932#16 then some .mute
  else if c = 57940#16 then some .left
  else if c = 57924#16 then some .right
  else if c = 57948#16 then some .av
  else none

/-- A known command code's own row of the table (R60). -/
def decodeCode (c : Cmd) : Except DecodeError Instr :=
  match nameOf c with
  | some n => .ok (instrOfName n)
  | none => .error .unknownCode

/-- EMIT's row: the count word equals 16 (match 0x10, mask 0x1F; R96). -/
def decodeCount (b : BitVec 40) : Except DecodeError Instr :=
  if b.extractLsb' 0 5 = Config.frameBits then .ok .emit else .error .notCountSixteen

/-- The decoder: total, and a word it refuses it refuses by name. -/
def decode (w : OpWord) : Except DecodeError Instr :=
  if w.bits.toNat < 2 ^ w.lane.width then
    match w.lane with
    | .clock => .ok (decodeClock w.bits)
    | .notify => decodeNotify w.bits
    | .look => .ok .avail
    | .symbol => .ok (decodeSymbol (tsField w.bits))
    | .count => decodeCount w.bits
    | .value => .ok (.push (cmdField w.bits))
    | .name => .ok (.lookup (cmdField w.bits))
    | .code => decodeCode (cmdField w.bits)
    | .init => .ok .init
  else .error .tooWide

/-- `IW = {rst, edge_valid, pop, edge_ts}` (R53), in the model's five bytes. -/
def clockBits (rst edgeValid pop : Bool) (ts : Timestamp) : BitVec 40 :=
  0#5 ++ BitVec.ofBool rst ++ BitVec.ofBool edgeValid ++ BitVec.ofBool pop ++ ts

/-- The encoder, from the same formats; every bit a format ignores is written 0. -/
def encode : Instr → OpWord
  | .reset => ⟨.clock, clockBits true false false 0#32⟩
  | .idle => ⟨.clock, clockBits false false false 0#32⟩
  | .avail => ⟨.look, 0#40⟩
  | .pop => ⟨.clock, clockBits false false true 0#32⟩
  | .edge ts => ⟨.clock, clockBits false true false ts⟩
  | .edgePop ts => ⟨.clock, clockBits false true true ts⟩
  | .symZero e => ⟨.symbol, e.setWidth 40⟩
  | .symOne e => ⟨.symbol, e.setWidth 40⟩
  | .symStart e => ⟨.symbol, e.setWidth 40⟩
  | .emit => ⟨.count, Config.frameBits.setWidth 40⟩
  | .push v => ⟨.value, v.setWidth 40⟩
  | .init => ⟨.init, 0#40⟩
  | .notify f ts => ⟨.notify, clockBits false f false ts⟩
  | .lookup c => ⟨.name, c.setWidth 40⟩
  | .cmdOnOff => ⟨.code, (codeOf .onOff).setWidth 40⟩
  | .cmdUp => ⟨.code, (codeOf .up).setWidth 40⟩
  | .cmdDown => ⟨.code, (codeOf .down).setWidth 40⟩
  | .cmdMute => ⟨.code, (codeOf .mute).setWidth 40⟩
  | .cmdLeft => ⟨.code, (codeOf .left).setWidth 40⟩
  | .cmdRight => ⟨.code, (codeOf .right).setWidth 40⟩
  | .cmdAv => ⟨.code, (codeOf .av).setWidth 40⟩

/-- The lane a table word of `nbits` bits (in whole bytes) is read in. Widths tell the formats apart but for CW, where a
known code is read as its own row and any other value as PUSH's operand (DESIGN CHOICE, log entry 18). -/
def tableLane (nbits w : Nat) : Option Lane :=
  if nbits = 0 then some .init
  else if nbits ≤ 8 then some .count
  else if nbits ≤ 16 then
    (match nameOf (BitVec.ofNat 16 w) with
     | some _ => some .code
     | none => some .value)
  else if nbits ≤ 24 then some .look
  else if nbits ≤ 32 then some .symbol
  else if nbits ≤ 40 then some .clock
  else none

/-- The presented word a table word stands for; none where no format has that width or the number does not fit. -/
def tableWord (nbits w : Nat) : Option OpWord :=
  match tableLane nbits w with
  | some lane => if w < 2 ^ lane.width then some ⟨lane, BitVec.ofNat 40 w⟩ else none
  | none => none

/-- What the decoder reads from an instruction whose bits are `w`, numbered as spec/opcode_table.json numbers them. -/
def decodeTableWord (nbits w : Nat) : Option Instr :=
  match tableWord nbits w with
  | some word =>
    (match decode word with
     | .ok i => some i
     | .error _ => none)
  | none => none

end Sys2Proof
end

