-- ==== Sys2Proof/Machine/State.lean ====
section
/-! DEFINITION. The state of the machine as plain data, the reasons it stops, and the state right after RESET. -/

namespace Sys2Proof.Machine

/-- The four output ports of R114, as they stood in the most recent clock: functions of the state at the start of that
clock and of its inputs (R27, R116, R117). The MODEL's own record of outputs; the block stores none of them (log entry 7). -/
structure Ports where
  /-- `available` (R116). -/
  available : Bool
  /-- `pop_data` (R116); a free value in a clock in which `available` is 0 (U11). -/
  popData : Cmd
  /-- `cmd_valid` (R117). -/
  cmdValid : Bool
  /-- `cmd_data` (R117); a free value in a clock in which `cmd_valid` is 0 (U11). -/
  cmdData : Cmd
  deriving DecidableEq, Repr

/-- What the most recent operation that returns something returned (the MODEL's own record, log entry 7). -/
inductive Result where
  /-- No operation has returned anything yet. -/
  | nothing
  /-- POP returned this command (R75). -/
  | popped (v : Cmd)
  /-- AVAIL returned this bit (R77). -/
  | available (b : Bool)
  /-- LOOKUP returned this name, or none for an unknown command (R118). -/
  | name (n : Option CmdName)
  /-- A command-code row gave this value (R60). -/
  | code (v : Cmd)
  deriving DecidableEq, Repr

/-- The state of R10 (`last`, `cnt`, `acc`, `head`, `tail`, `buf`), and the model's own fields: what the environment has
still to present, what the ports showed, what was returned, and the counter of free values. -/
structure State where
  /-- The timestamp of the previous edge (R12). -/
  last : Timestamp
  /-- The bits folded into the command in progress (R14). -/
  cnt : Count
  /-- The command in progress (R15). -/
  acc : Cmd
  /-- The index of the slot the next PUSH writes (R16). -/
  head : Index
  /-- The index of the slot the next POP reads (R17). -/
  tail : Index
  /-- `buf` (R18): slot `i` in the bytes `2 i` (low) and `2 i + 1` (high), a slot never written not listed. -/
  mem : List Host.Cell
  /-- MODEL: the words the environment presents from here on, the next one first (R36, R61, R172). -/
  inputs : List OpWord
  /-- MODEL: the output ports in the most recent clock. -/
  ports : Ports
  /-- MODEL: what an operation last returned. -/
  result : Result
  /-- MODEL: the number of clocks shown so far, which picks the next free value. -/
  draws : Nat
  deriving DecidableEq, Repr

/-- Why the machine stops on a violated contract (R127). The hardware itself raises nothing (R125). -/
inductive Fault where
  /-- `violate PopOnEmpty`: raised by POP and EDGE_POP where `head = tail`, as R76 and U1 ask of a model. SAFE: the
  hardware goes on there, unguarded, and nothing may rest on what it does. -/
  | popOnEmpty
  deriving DecidableEq, Repr

/-- Why the model gives a presented word no meaning. -/
inductive Refusal where
  /-- An instruction without a meaning, refused by its mnemonic; raised by the dispatch alone, and there by no arm. SAFE. -/
  | notModelled (mnemonic : String)
  /-- A presented word that is no operation of the spec; raised by the step, never on an input word IW (R59). SAFE. -/
  | badWord (e : DecodeError)
  deriving DecidableEq, Repr

/-- The machine right after RESET (R25): the registers at the values of R110, no slot written since power-up, nothing
presented yet. The values of `ports`, `result` and `draws` are the model's own (DESIGN CHOICE, log entry 7). -/
def State.reset : State :=
  { last := Config.lastAtReset
    cnt := 0#5
    acc := 0#16
    head := 0#7
    tail := 0#7
    mem := []
    inputs := []
    ports := { available := false, popData := 0#16, cmdValid := false, cmdData := 0#16 }
    result := .nothing
    draws := 0 }

end Sys2Proof.Machine
end

