-- ==== Sys2Proof/Machine/Operands.lean ====
section
/-! DEFINITION. The operand forms: the elapsed interval (R56), the accumulator's shift and append (R57), the advance of an
index (R32), and the bytes of a slot. (The symbol of an interval, R52, and the command table, R60, are in Decode.) -/

namespace Sys2Proof.Machine

/-- `elapsed = ts - last` modulo 2^32 (R56). -/
def elapsed (ts : Timestamp) (s : State) : Timestamp := ts - s.last

/-- `shl1_16` (R7, R57): bit 15 is lost, bit 0 is cleared. -/
def shl1 (v : Cmd) : Cmd := v <<< 1

/-- `shl1_16(v) | 1` (R57). -/
def shl1Or1 (v : Cmd) : Cmd := shl1 v ||| 1#16

/-- `(i + 1) mod 128`, by masking with `C - 1` (R32). -/
def advance (i : Index) : Index := i + 1#7

/-- The byte address of a slot's low byte. -/
def lowByteAddr (i : Index) : Nat := 2 * i.toNat

/-- The byte address of a slot's high byte. -/
def highByteAddr (i : Index) : Nat := 2 * i.toNat + 1

/-- Bits 7..0 of a command. -/
def lowByte (v : Cmd) : Byte := v.extractLsb' 0 8

/-- Bits 15..8 of a command. -/
def highByte (v : Cmd) : Byte := v.extractLsb' 8 8

/-- The command whose high and low bytes are given. -/
def joinBytes (hi lo : Byte) : Cmd := hi ++ lo

end Sys2Proof.Machine
end

