-- ==== Sys2Proof/Machine/Memory.lean ====
section
/-! DEFINITION. The memory list: reading and writing one byte, its canonical form, and whole slots (R30 to R33). -/

namespace Sys2Proof.Machine

/-- The byte listed at an address; none where nothing has written it. -/
def Memory.read : List Host.Cell → Nat → Option Byte
  | [], _ => none
  | (k, b) :: rest, a => if a = k then some b else Memory.read rest a

/-- Write one byte, keeping the list sorted by address. -/
def Memory.write : List Host.Cell → Nat → Byte → List Host.Cell
  | [], a, v => [(a, v)]
  | (k, b) :: rest, a, v =>
    if a < k then (a, v) :: (k, b) :: rest
    else if a = k then (a, v) :: rest
    else (k, b) :: Memory.write rest a v

/-- The canonical form: addresses strictly rising, all within the array. An unlisted byte has no value, so no listed
entry can equal what an unlisted one reads as. -/
abbrev Memory.wf (m : List Host.Cell) : Prop :=
  m.Pairwise (fun x y => x.1 < y.1) ∧ ∀ c ∈ m, c.1 < Config.memBytes

/-- A slot that a PUSH has written, read whole (R33); none where no PUSH has written it. -/
def Memory.slot (m : List Host.Cell) (i : Index) : Option Cmd :=
  match Memory.read m (highByteAddr i), Memory.read m (lowByteAddr i) with
  | some hi, some lo => some (joinBytes hi lo)
  | _, _ => none

/-- Write a slot whole (R33). -/
def Memory.setSlot (m : List Host.Cell) (i : Index) (v : Cmd) : List Host.Cell :=
  Memory.write (Memory.write m (lowByteAddr i) (lowByte v)) (highByteAddr i) (highByte v)

end Sys2Proof.Machine
end

