-- ==== Sys2Proof/Machine/Flags.lean ====
section
/-! DEFINITION. The status the block exports, none of it stored: `available` (R19, R77), the readable count (R28), and the
four output ports as functions of the state at the start of a clock and of that clock's edge (R54, R116, R117). -/

namespace Sys2Proof.Machine

/-- `MemRead(i, 1)` (R8): the slot, or, if no PUSH has written it since power-up, the free value of that slot (U2). -/
def memRead (i : Index) (s : State) : Cmd := (Memory.slot s.mem i).getD (Config.powerUpSlot i)

/-- `available = (head != tail)` (R19, R77). -/
def available (s : State) : Bool := s.head != s.tail

/-- `count = (head - tail) mod 128` (R28). -/
def count (s : State) : Nat := (s.head - s.tail).toNat

/-- `cmd_valid` (R117): the clock carries an edge, `cnt` is 15, and the interval is below `T_START`. -/
def cmdValid (edgeTs : Option Timestamp) (s : State) : Bool :=
  match edgeTs with
  | none => false
  | some ts => s.cnt == 15#5 && decide (elapsed ts s < Config.tStart)

/-- `cmd_data = {acc[14:0], (elapsed >= T_ONE)}` in a clock that pushes, else a free value (R117, U11). -/
def cmdData (edgeTs : Option Timestamp) (s : State) : Cmd :=
  match edgeTs with
  | some ts =>
    if cmdValid edgeTs s then s.acc.extractLsb' 0 15 ++ BitVec.ofBool (decide (Config.tOne ≤ elapsed ts s))
    else Config.idleCmdData s.draws
  | none => Config.idleCmdData s.draws

/-- `pop_data = buf[tail]` where `available` is 1, else a free value (R54, R116, U11). -/
def popData (s : State) : Cmd :=
  if available s then memRead s.tail s else Config.idlePopData s.draws

/-- What the ports show in a clock that starts in state `s`; `edgeTs` is the clock's edge, if it performs one. -/
def portsOf (edgeTs : Option Timestamp) (s : State) : Ports :=
  { available := available s
    popData := popData s
    cmdValid := cmdValid edgeTs s
    cmdData := cmdData edgeTs s }

end Sys2Proof.Machine
end

