-- ==== Sys2Proof/Machine/Ops.lean ====
section
/-! DEFINITION. The named operations over the state: the spec's pseudocode, each operation once. There is no exception to
take and none to return from: the block raises nothing, saves nothing and has no mode (R125, R131, R132, R146). -/

namespace Sys2Proof.Machine

/-- `MemWrite(i, 1, v)` (R8). -/
def memWrite (i : Index) (v : Cmd) (s : State) : State := { s with mem := Memory.setSlot s.mem i v }

/-- What every clock does first: the outputs are computed from the state at its start (R120). -/
def showPorts (edgeTs : Option Timestamp) (s : State) : State :=
  { s with ports := portsOf edgeTs s, draws := s.draws + 1 }

/-- Record what an operation returns. -/
def returning (r : Result) (s : State) : State := { s with result := r }

/-- INIT (R71). -/
def initBuffer (s : State) : State := { s with head := 0#7, tail := 0#7 }

/-- Where `tail` stands once `head` has advanced (R73): it moves on, dropping the oldest command, exactly when the new
`head` has reached it. -/
def tailAfterPush (newHead tail : Index) : Index := if newHead = tail then advance tail else tail

/-- PUSH (R73): the slot is written, `head` advances, and `tail` is tested against the new `head`. -/
def pushBuffer (v : Cmd) (s : State) : State :=
  let written := memWrite s.head v s
  let advanced := { written with head := advance written.head }
  { advanced with tail := tailAfterPush advanced.head advanced.tail }

/-- POP where `head` and `tail` differ (R75): the slot at `tail` is returned and `tail` advances. -/
def popBuffer (s : State) : State :=
  let v := memRead s.tail s
  returning (.popped v) { s with tail := advance s.tail }

/-- SYM.ZERO (R93). -/
def symZeroArm (s : State) : State := { s with acc := shl1 s.acc, cnt := s.cnt + 1#5 }

/-- SYM.ONE (R94). -/
def symOneArm (s : State) : State := { s with acc := shl1Or1 s.acc, cnt := s.cnt + 1#5 }

/-- SYM.START (R95): `acc` is not written. -/
def symStartArm (s : State) : State := { s with cnt := 0#5 }

/-- The arm a symbol selects (R92, step 3). -/
def symbolArm : Symbol → State → State
  | .zero, s => symZeroArm s
  | .one, s => symOneArm s
  | .frameStart, s => symStartArm s

/-- EMIT (R96): `acc` is pushed and not cleared. -/
def emitCommand (s : State) : State := { pushBuffer s.acc s with cnt := 0#5 }

/-- Step 4 of EDGE (R92, R96): EMIT runs only when `cnt` is 16. -/
def emitIfComplete (s : State) : State := if s.cnt = Config.frameBits then emitCommand s else s

/-- EDGE (R92), its four steps in order. -/
def edgeDecoder (ts : Timestamp) (s : State) : State :=
  let e := elapsed ts s
  emitIfComplete (symbolArm (symbolOf e) { s with last := ts })

/-- The register writes of RESET (R110); `buf` is not written. -/
def resetBlock (s : State) : State :=
  initBuffer { s with last := Config.lastAtReset, cnt := 0#5, acc := 0#16 }

/-- A clock that performs nothing (R121). -/
def idleClock (s : State) : State := showPorts none s

/-- A clock that performs EDGE (R120). -/
def edgeClock (ts : Timestamp) (s : State) : State := edgeDecoder ts (showPorts (some ts) s)

/-- The word the environment presents next and the state without it. Where nothing is left to present the word is IDLE's:
a stopped trace cannot be told from a run of IDLE clocks (R172). -/
def fetch (s : State) : OpWord × State :=
  match s.inputs with
  | [] => (encode .idle, s)
  | w :: rest => (w, { s with inputs := rest })

/-- The state in which `w` is presented next, before everything that was to be presented. -/
def present (w : OpWord) (s : State) : State := { s with inputs := w :: s.inputs }

end Sys2Proof.Machine
end

