-- ==== Sys2Proof/Machine/Decoder.lean ====
section
/-! DEFINITION. The decoder family: EDGE, its three symbol arms and EMIT (41_decoder.md). -/

namespace Sys2Proof.Machine

/-- EDGE `ts` (R92). -/
def execEdge (ts : Timestamp) (s : State) : Host.Outcome State Fault Refusal := .next (edgeClock ts s)

/-- SYM.ZERO (R93). An arm of EDGE in the hardware; here also alone, as one operation (log entries 3 and 15). -/
def execSymZero (s : State) : Host.Outcome State Fault Refusal := .next (symZeroArm s)

/-- SYM.ONE (R94). An arm of EDGE in the hardware; here also alone, as one operation (log entries 3 and 15). -/
def execSymOne (s : State) : Host.Outcome State Fault Refusal := .next (symOneArm s)

/-- SYM.START (R95). An arm of EDGE in the hardware; here also alone, as one operation (log entries 3 and 15). -/
def execSymStart (s : State) : Host.Outcome State Fault Refusal := .next (symStartArm s)

/-- EMIT (R96), which runs only when `cnt` is 16: step 4 of EDGE; here also alone, as one operation (log entries 3 and 14). -/
def execEmit (s : State) : Host.Outcome State Fault Refusal := .next (emitIfComplete s)

end Sys2Proof.Machine
end

