-- ==== Sys2Proof/Machine/Facade.lean ====
section
/-! DEFINITION. The boundary family: RESET, IDLE, EDGE_POP, NOTIFY, LOOKUP, and the command-code rows (42_facade.md, R60). -/

namespace Sys2Proof.Machine

/-- RESET (R110): it wins the clock, and the other inputs of the clock are ignored (R120). -/
def execReset (s : State) : Host.Outcome State Fault Refusal := .next (resetBlock (showPorts none s))

/-- IDLE (R121). -/
def execIdle (s : State) : Host.Outcome State Fault Refusal := .next (idleClock s)

/-- EDGE_POP `ts` (R120): POP first, then EDGE on the state the POP leaves; on an empty buffer the POP's violation,
whatever the EDGE does (R130). -/
def execEdgePop (ts : Timestamp) (s : State) : Host.Outcome State Fault Refusal :=
  if available s then .next (edgeDecoder ts (popBuffer (showPorts (some ts) s))) else .fault .popOnEmpty

/-- NOTIFY `falling, ts` (R113): EDGE on a falling edge; on a rising one nothing, and `last` is not updated. -/
def execNotify (falling : Bool) (ts : Timestamp) (s : State) : Host.Outcome State Fault Refusal :=
  .next (if falling then edgeClock ts s else idleClock s)

/-- LOOKUP `c` (R118): a pure function outside the block; the optional name is returned. -/
def execLookup (c : Cmd) (s : State) : Host.Outcome State Fault Refusal := .next (returning (.name (nameOf c)) s)

/-- CMD.ON_OFF (R60): a value, no operation; the block is untouched and the value is given back (log entry 16). -/
def execCmdOnOff (s : State) : Host.Outcome State Fault Refusal := .next (returning (.code (codeOf .onOff)) s)

/-- CMD.UP (R60; log entry 16). -/
def execCmdUp (s : State) : Host.Outcome State Fault Refusal := .next (returning (.code (codeOf .up)) s)

/-- CMD.DOWN (R60; log entry 16). -/
def execCmdDown (s : State) : Host.Outcome State Fault Refusal := .next (returning (.code (codeOf .down)) s)

/-- CMD.MUTE (R60; log entry 16). -/
def execCmdMute (s : State) : Host.Outcome State Fault Refusal := .next (returning (.code (codeOf .mute)) s)

/-- CMD.LEFT (R60; log entry 16). -/
def execCmdLeft (s : State) : Host.Outcome State Fault Refusal := .next (returning (.code (codeOf .left)) s)

/-- CMD.RIGHT (R60; log entry 16). -/
def execCmdRight (s : State) : Host.Outcome State Fault Refusal := .next (returning (.code (codeOf .right)) s)

/-- CMD.AV (R60; log entry 16). -/
def execCmdAv (s : State) : Host.Outcome State Fault Refusal := .next (returning (.code (codeOf .av)) s)

end Sys2Proof.Machine
end

