-- ==== Sys2Proof/Machine/RingBuffer.lean ====
section
/-! DEFINITION. The ring buffer family: INIT, PUSH, POP, AVAIL (40_ringbuffer.md). -/

namespace Sys2Proof.Machine

/-- INIT (R71). Part of RESET in the hardware; here also alone, as one operation (log entry 3). -/
def execInit (s : State) : Host.Outcome State Fault Refusal := .next (initBuffer s)

/-- PUSH `v` (R73). Part of EMIT in the hardware; here also alone, as one operation (log entry 3). -/
def execPush (v : Cmd) (s : State) : Host.Outcome State Fault Refusal := .next (pushBuffer v s)

/-- POP (R75). On an empty buffer the contract is violated, and a model makes that a fault (R76, R127, U1; log entry 4). -/
def execPop (s : State) : Host.Outcome State Fault Refusal :=
  if available s then .next (popBuffer (showPorts none s)) else .fault .popOnEmpty

/-- AVAIL (R77): the bit is returned and nothing of the block changes. -/
def execAvail (s : State) : Host.Outcome State Fault Refusal :=
  .next (returning (.available (available s)) (idleClock s))

end Sys2Proof.Machine
end

