-- ==== Sys2Proof/Machine/Dispatch.lean ====
section
/-! DEFINITION. The dispatch: one arm for each constructor of Instr. -/

namespace Sys2Proof.Machine

def exec (i : Instr) (s : State) : Host.Outcome State Fault Refusal :=
  match i with
  | .reset => Sys2Proof.Machine.execReset s
  | .idle => Sys2Proof.Machine.execIdle s
  | .avail => Sys2Proof.Machine.execAvail s
  | .pop => Sys2Proof.Machine.execPop s
  | .edge ts => Sys2Proof.Machine.execEdge ts s
  | .edgePop ts => Sys2Proof.Machine.execEdgePop ts s
  | .symZero _ => Sys2Proof.Machine.execSymZero s
  | .symOne _ => Sys2Proof.Machine.execSymOne s
  | .symStart _ => Sys2Proof.Machine.execSymStart s
  | .emit => Sys2Proof.Machine.execEmit s
  | .push v => Sys2Proof.Machine.execPush v s
  | .init => Sys2Proof.Machine.execInit s
  | .notify f ts => Sys2Proof.Machine.execNotify f ts s
  | .lookup c => Sys2Proof.Machine.execLookup c s
  | .cmdOnOff => Sys2Proof.Machine.execCmdOnOff s
  | .cmdUp => Sys2Proof.Machine.execCmdUp s
  | .cmdDown => Sys2Proof.Machine.execCmdDown s
  | .cmdMute => Sys2Proof.Machine.execCmdMute s
  | .cmdLeft => Sys2Proof.Machine.execCmdLeft s
  | .cmdRight => Sys2Proof.Machine.execCmdRight s
  | .cmdAv => Sys2Proof.Machine.execCmdAv s

end Sys2Proof.Machine
end

