-- ==== Sys2Proof/Machine/Step.lean ====
section
/-! DEFINITION. One step: the next word the environment presents is decoded and performed. -/

namespace Sys2Proof.Machine

/-- One clock, or one operation of the operation level (R119, R120). -/
def step (s : State) : Host.Outcome State Fault Refusal :=
  match decode (fetch s).1 with
  | .ok i => exec i (fetch s).2
  | .error e => .refused (.badWord e)

/-- `s` with the table word `w` presented next (`present`); unchanged where the number is no word of any format. -/
def State.withFetchWord (s : State) (nbits w : Nat) : State :=
  match tableWord nbits w with
  | some word => present word s
  | none => s

end Sys2Proof.Machine
end

