-- ==== Sys2Proof/WellFormed.lean ====
section
/-! DEFINITION. Which instruction terms stand for something: a symbol row carries an interval of its own class (R52). -/

namespace Sys2Proof

/-- A symbol instruction is well formed exactly when its interval lies in the range R52 gives its symbol; every other
operand is a full-width field, all of whose values are legal (R59). -/
def Instr.wellFormed : Instr → Bool
  | .symZero e => decide (e < Config.tOne)
  | .symOne e => decide (Config.tOne ≤ e) && decide (e < Config.tStart)
  | .symStart e => decide (Config.tStart ≤ e)
  | .reset => true
  | .idle => true
  | .avail => true
  | .pop => true
  | .edge _ => true
  | .edgePop _ => true
  | .emit => true
  | .push _ => true
  | .init => true
  | .notify _ _ => true
  | .lookup _ => true
  | .cmdOnOff => true
  | .cmdUp => true
  | .cmdDown => true
  | .cmdMute => true
  | .cmdLeft => true
  | .cmdRight => true
  | .cmdAv => true

end Sys2Proof
end

