-- ==== Sys2Proof/Safety.lean ====
section
/-! DEFINITION. The terms the claims use: what the environment may present, the state at rest (R26), what one state keeps
of another, runs of operations, and the receiver the block is compared with. -/

namespace Sys2Proof.Machine

/-! ### What one state keeps of another (frames) -/

/-- The decoder registers are unchanged. -/
def SameDecoder (s t : State) : Prop := t.last = s.last ∧ t.cnt = s.cnt ∧ t.acc = s.acc

/-- The buffer's indices are unchanged. -/
def SameIndices (s t : State) : Prop := t.head = s.head ∧ t.tail = s.tail

/-- Every byte of the slot array is unchanged, the never-written ones too. -/
def SameBytes (s t : State) : Prop := ∀ a, Memory.read t.mem a = Memory.read s.mem a

/-- Every byte of the slot array is unchanged but the two of slot `i`. -/
def SameBytesBut (i : Index) (s t : State) : Prop :=
  ∀ a, a ≠ lowByteAddr i → a ≠ highByteAddr i → Memory.read t.mem a = Memory.read s.mem a

/-- The slots and `head` are unchanged, or the slot at `head` alone was written and `head` advanced (R73, R135). -/
def StoresAtHead (s t : State) : Prop :=
  (t.head = s.head ∧ SameBytes s t) ∨ (t.head = s.head + 1#7 ∧ SameBytesBut s.head s t)

/-- The whole state of R10 is unchanged. -/
def SameBlock (s t : State) : Prop := SameDecoder s t ∧ SameIndices s t ∧ SameBytes s t

/-- The model's own fields are unchanged: nothing was presented, shown or returned. -/
def SameRecord (s t : State) : Prop :=
  t.inputs = s.inputs ∧ t.ports = s.ports ∧ t.result = s.result ∧ t.draws = s.draws

/-- `t` is reached by a clock that showed the ports of state `s` and carried the given edge, or none. -/
def ShowsClock (edgeTs : Option Timestamp) (s t : State) : Prop :=
  t.inputs = s.inputs ∧ t.ports = portsOf edgeTs s ∧ t.draws = s.draws + 1

/-! ### Who asks for what (R135, R142) -/

/-- The three agents of R142. -/
inductive Agent where
  | host
  | producer
  | consumer
  deriving DecidableEq, Repr

/-- Which agents an operation belongs to (R58, R135); EDGE_POP is one request of each domain, and the rows that are no
request of an agent have none. -/
def agentsOf : Instr → List Agent
  | .reset => [.host]
  | .init => [.host]
  | .edge _ => [.producer]
  | .notify _ _ => [.producer]
  | .symZero _ => [.producer]
  | .symOne _ => [.producer]
  | .symStart _ => [.producer]
  | .emit => [.producer]
  | .push _ => [.producer]
  | .pop => [.consumer]
  | .avail => [.consumer]
  | .edgePop _ => [.consumer, .producer]
  | .idle => []
  | .lookup _ => []
  | .cmdOnOff => []
  | .cmdUp => []
  | .cmdDown => []
  | .cmdMute => []
  | .cmdLeft => []
  | .cmdRight => []
  | .cmdAv => []

/-- The operations an environment can ask for (R58, kind external). -/
def isExternal : Instr → Bool
  | .reset => true
  | .idle => true
  | .avail => true
  | .pop => true
  | .edge _ => true
  | .edgePop _ => true
  | .notify _ _ => true
  | .symZero _ => false
  | .symOne _ => false
  | .symStart _ => false
  | .emit => false
  | .push _ => false
  | .init => false
  | .lookup _ => false
  | .cmdOnOff => false
  | .cmdUp => false
  | .cmdDown => false
  | .cmdMute => false
  | .cmdLeft => false
  | .cmdRight => false
  | .cmdAv => false

/-- A word that decodes to an operation an environment can ask for. -/
def asksExternal (w : OpWord) : Bool :=
  match decode w with
  | .ok i => isExternal i
  | .error _ => false

/-- Operations that pop (R75, R120). -/
def asksPop : Instr → Bool
  | .pop => true
  | .edgePop _ => true
  | .reset | .idle | .avail | .edge _ | .notify _ _ => false
  | .symZero _ | .symOne _ | .symStart _ | .emit | .push _ | .init | .lookup _ => false
  | .cmdOnOff | .cmdUp | .cmdDown | .cmdMute | .cmdLeft | .cmdRight | .cmdAv => false

/-- The timestamp of the edge an external operation carries to the decoder, if it carries one (R92, R113, R120). -/
def edgeOf : Instr → Option Timestamp
  | .edge ts => some ts
  | .edgePop ts => some ts
  | .notify true ts => some ts
  | .notify false _ => none
  | .reset | .idle | .avail | .pop => none
  | .symZero _ | .symOne _ | .symStart _ | .emit | .push _ | .init | .lookup _ => none
  | .cmdOnOff | .cmdUp | .cmdDown | .cmdMute | .cmdLeft | .cmdRight | .cmdAv => none

/-! ### The state at rest (R26) -/

/-- Slot `i` is one of the unread ones (R43). -/
def liveSlot (s : State) (i : Index) : Prop := (i - s.tail).toNat < count s

/-- Every slot has both its bytes written or neither (R33: a slot is written whole). -/
def wholeSlots (m : List Host.Cell) : Prop :=
  ∀ i : Index, (Memory.read m (lowByteAddr i)).isSome = (Memory.read m (highByteAddr i)).isSome

/-- The invariants of R26 that are facts about one state, and the canonical form of the memory list. -/
structure AtRest (s : State) : Prop where
  /-- `0 <= cnt <= 15` (R14). -/
  cntSmall : s.cnt.toNat ≤ 15
  /-- The memory list is canonical. -/
  memWf : Memory.wf s.mem
  /-- Slots are written whole. -/
  memWhole : wholeSlots s.mem
  /-- Every slot of the live range has been written by a PUSH. -/
  liveWritten : ∀ i, liveSlot s i → (Memory.slot s.mem i).isSome = true

/-- The state is at rest and all the environment has still to present are operations it can ask for. -/
structure LegalState (s : State) : Prop where
  rest : AtRest s
  external : ∀ w ∈ s.inputs, asksExternal w = true

/-! ### Runs of operations -/

/-- The operations one after another, stopping at the first that does not answer a next state. -/
def execAll : List Instr → State → Host.Outcome State Fault Refusal
  | [], s => .next s
  | i :: rest, s =>
    match exec i s with
    | .next t => execAll rest t
    | .fault r => .fault r
    | .refused r => .refused r

/-- `n` POPs one after another: the commands returned, in order, and the state after them; none if one faults. -/
def popMany : Nat → State → Option (List Cmd × State)
  | 0, s => some ([], s)
  | n + 1, s =>
    match exec .pop s with
    | .next t =>
      (match t.result, popMany n t with
       | .popped v, some (vs, u) => some (v :: vs, u)
       | _, _ => none)
    | .fault _ => none
    | .refused _ => none

/-- The timestamps of edges that follow each other at the given intervals, the first one after `from` (R61, `GAP`). -/
def edgesAt (last : Timestamp) : List Timestamp → List Instr
  | [] => []
  | d :: rest => .edge (last + d) :: edgesAt (last + d) rest

/-- The number of PUSHes in a list of operations. -/
def pushCount : List Instr → Nat
  | [] => 0
  | .push _ :: rest => pushCount rest + 1
  | _ :: rest => pushCount rest

/-! ### The receiver the block is compared with -/

/-- The unread commands, oldest first (R43). -/
def unread (s : State) : List Cmd :=
  (List.range (count s)).map fun k => memRead (s.tail + BitVec.ofNat 7 k) s

/-- The bits of the command in progress, first received first (R55). -/
def bitsSoFar (s : State) : List Bool :=
  (List.range s.cnt.toNat).map fun k => s.acc.getLsbD (s.cnt.toNat - 1 - k)

/-- The number whose binary digits are the given bits, most significant first (R55). -/
def numberOf (bits : List Bool) : Nat := bits.foldl (fun n b => 2 * n + b.toNat) 0

/-- A receiver without registers or slots: the last timestamp, the bits of the frame, the queue of commands. -/
structure Receiver where
  last : Timestamp
  bits : List Bool
  queue : List Cmd
  deriving DecidableEq, Repr

/-- Drop-oldest (R9, R80): a queue of `USABLE` commands loses its oldest for the new one. -/
def Receiver.enqueue (v : Cmd) (q : List Cmd) : List Cmd :=
  (if q.length < Config.usable then q else q.tail) ++ [v]

/-- What an edge does to the receiver: an interval of 2500 or more restarts the frame, a shorter one appends a bit, and
the sixteenth bit makes a command (R52, R55, R97). -/
def Receiver.edge (ts : Timestamp) (r : Receiver) : Receiver :=
  if 2500 ≤ (ts - r.last).toNat then { r with last := ts, bits := [] }
  else
    let bits := r.bits ++ [decide (1500 ≤ (ts - r.last).toNat)]
    if bits.length = 16 then
      { last := ts, bits := [], queue := Receiver.enqueue (BitVec.ofNat 16 (numberOf bits)) r.queue }
    else { r with last := ts, bits := bits }

/-- What a pop takes from the receiver; none where nothing is unread. -/
def Receiver.pop (r : Receiver) : Option (Cmd × Receiver) :=
  match r.queue with
  | [] => none
  | v :: rest => some (v, { r with queue := rest })

/-- What an external operation does to the receiver; none where it pops an empty queue. -/
def Receiver.step (i : Instr) (r : Receiver) : Option Receiver :=
  match i with
  | .reset => some { last := 0#32, bits := [], queue := [] }
  | .edge ts => some (r.edge ts)
  | .notify true ts => some (r.edge ts)
  | .pop => r.pop.map Prod.snd
  | .edgePop ts => r.pop.map fun p => p.2.edge ts
  | .notify false _ | .idle | .avail => some r
  | .symZero _ | .symOne _ | .symStart _ | .emit | .push _ | .init | .lookup _ => some r
  | .cmdOnOff | .cmdUp | .cmdDown | .cmdMute | .cmdLeft | .cmdRight | .cmdAv => some r

/-- The receiver a state of the block stands for. -/
def receiverOf (s : State) : Receiver := { last := s.last, bits := bitsSoFar s, queue := unread s }

end Sys2Proof.Machine
end

