-- ==== Sys2Proof/Certificates/Slice0/Obligations.lean ====
section
/-! DEFINITION. The statements for the provers, in the order of OBLIGATIONS.json: encoding, the machine, the operations one
by one, the whole machine, the buffer as a queue, the decoder, and the headline results. -/

open Sys2Proof Sys2Proof.Machine

/-! ### Encoding -/

/-- A few input words of the spec's own traces (95_test_vectors.md PR1, PR2, ST3, ST5; the IW packing is decision D17) and
the words of EMIT's row and of two command codes, each decoded to what it stands for. -/
def Obligations.KnownWordsDecode : Prop :=
  decode ⟨.clock, 0x4FFFFFFFF#40⟩ = .ok .reset ∧
  decode ⟨.clock, 0x200000BB8#40⟩ = .ok (.edge 3000#32) ∧
  decode ⟨.clock, 0x30000FDE8#40⟩ = .ok (.edgePop 65000#32) ∧
  decode ⟨.clock, 0x100000000#40⟩ = .ok .pop ∧
  decode ⟨.clock, 0x0DEADBEEF#40⟩ = .ok .idle ∧
  decode ⟨.count, 0x10#40⟩ = .ok .emit ∧
  decode ⟨.code, 0xE240#40⟩ = .ok .cmdOnOff ∧
  decode ⟨.code, 0xE25C#40⟩ = .ok .cmdAv

/-- Every 35-bit input word is an operation, chosen by its top three bits; `edge_ts` is its low 32 bits (R53 and R59; the
packing is the spec's decision D17). -/
def Obligations.TopBitsSelectOperation : Prop :=
  ∀ b : BitVec 40, b.toNat < 2 ^ 35 →
    decode ⟨.clock, b⟩ = .ok
      (if 4 ≤ b.toNat / 2 ^ 32 then .reset
       else if b.toNat / 2 ^ 32 = 3 then .edgePop (BitVec.ofNat 32 b.toNat)
       else if b.toNat / 2 ^ 32 = 2 then .edge (BitVec.ofNat 32 b.toNat)
       else if b.toNat / 2 ^ 32 = 1 then .pop
       else .idle)

/-- R52: every elapsed interval is exactly one symbol, ZERO up to 1499, ONE from 1500 to 2499, FRAME-START from 2500; the
comparisons are unsigned. -/
def Obligations.SymbolRangesDecode : Prop :=
  ∀ e : Timestamp,
    decode ⟨.symbol, e.setWidth 40⟩ = .ok
      (if e.toNat ≤ 1499 then .symZero e else if e.toNat ≤ 2499 then .symOne e else .symStart e)

/-- For every well-formed instruction, decoding its encoding gives it back, with every operand. -/
def Obligations.DecodeEncodeRoundTrip : Prop :=
  ∀ i : Instr, i.wellFormed = true → decode (encode i) = .ok i

/-- The decoder answers well-formed instructions only: a symbol row comes with an interval of its own range. -/
def Obligations.DecodedInstructionsAreWellFormed : Prop :=
  ∀ (w : OpWord) (i : Instr), decode w = .ok i → i.wellFormed = true

/-- Exactly these words are refused. That they are is the model's choice (log entry 24; for bits 34 and 32 of a notification
log entry 19), and so are the lanes (log entry 3): the spec calls no encoding illegal. No input word of 35 bits is among
them, which R59 does say. -/
def Obligations.RefusedWordsAreThese : Prop :=
  ∀ w : OpWord, (∃ e, decode w = .error e) ↔
    (2 ^ w.lane.width ≤ w.bits.toNat ∨
     (w.lane = .count ∧ w.bits.toNat ≠ 16) ∨
     (w.lane = .code ∧ w.bits.toNat ∉ [57920, 57928, 57936, 57932, 57940, 57924, 57948]) ∨
     (w.lane = .notify ∧ (2 ^ 34 ≤ w.bits.toNat ∨ w.bits.toNat / 2 ^ 32 % 2 = 1)))

/-! ### The machine -/

/-- A step performs the next presented word's instruction on the state without that word; where nothing is left to present
it performs IDLE (R172); a word that is no operation is refused by the decoder's name for it (log entries 1, 2, 3). -/
def Obligations.StepRunsDecodedInstruction : Prop :=
  ∀ s : State,
    (∀ w rest i, s.inputs = w :: rest → decode w = .ok i → step s = exec i { s with inputs := rest }) ∧
    (∀ w rest e, s.inputs = w :: rest → decode w = .error e → step s = .refused (.badWord e)) ∧
    (s.inputs = [] → step s = exec .idle s)

/-- A table word placed for fetching is the very next instruction performed, on the state it was placed in. -/
def Obligations.PlacedTableWordRunsNext : Prop :=
  ∀ (s : State) (nbits w : Nat) (i : Instr), decodeTableWord nbits w = some i →
    step (s.withFetchWord nbits w) = exec i s

/-- R25: the values RESET leaves (those of `last`, `cnt` and `acc` are the spec's decision D5, log entry 13), an empty
buffer, and no slot written. -/
def Obligations.ResetStateValues : Prop :=
  State.reset.head = 0#7 ∧ State.reset.tail = 0#7 ∧ State.reset.cnt = 0#5 ∧ State.reset.acc = 0#16 ∧
  State.reset.last = 0#32 ∧ available State.reset = false ∧ unread State.reset = [] ∧
  ∀ i, Memory.slot State.reset.mem i = none

/-- The state after RESET is at rest (R26), and nothing illegal is waiting to be presented. -/
def Obligations.ResetStateIsLegal : Prop := LegalState State.reset

/-! ### The operations one by one -/

/-- INIT (R71): both indices 0, the buffer empty whatever it held, no slot and nothing else touched; RESET leaves the
same indices, since INIT is part of it. (INIT performed alone is log entry 3.) -/
def Obligations.InitEmptiesBuffer : Prop :=
  ∀ s : State, ∃ t u, exec .init s = .next t ∧ exec .reset s = .next u ∧
    t.head.toNat = 0 ∧ t.tail.toNat = 0 ∧ SameIndices t u ∧ available t = false ∧ unread t = [] ∧
    SameDecoder s t ∧ SameBytes s t ∧ SameRecord s t

/-- PUSH (40_ringbuffer.md section 3): the value is in the slot at the old `head`, `head` advances modulo 128, `tail`
advances if the new `head` reached it, `available` is 1, and nothing else changes. PUSH alone is log entry 3. -/
def Obligations.PushResult : Prop :=
  ∀ (s : State) (v : Cmd), ∃ t, exec (.push v) s = .next t ∧
    Memory.slot t.mem s.head = some v ∧
    t.head.toNat = (s.head.toNat + 1) % 128 ∧
    t.tail.toNat = (if (s.head.toNat + 1) % 128 = s.tail.toNat then (s.tail.toNat + 1) % 128 else s.tail.toNat) ∧
    available t = true ∧ SameDecoder s t ∧ SameBytesBut s.head s t ∧ SameRecord s t

/-- POP where a command is unread (40_ringbuffer.md section 4): the slot at `tail` is returned and shown on `pop_data` in
the same clock, `tail` advances modulo 128, `available` falls exactly when this was the last, nothing else changes. -/
def Obligations.PopResult : Prop :=
  ∀ s : State, s.head ≠ s.tail → ∃ t, exec .pop s = .next t ∧
    t.result = .popped (memRead s.tail s) ∧
    (∀ v, Memory.slot s.mem s.tail = some v → memRead s.tail s = v) ∧
    t.ports.popData = memRead s.tail s ∧
    t.tail.toNat = (s.tail.toNat + 1) % 128 ∧ t.head = s.head ∧
    (available t = true ↔ count s ≠ 1) ∧
    SameDecoder s t ∧ SameBytes s t ∧ ShowsClock none s t

/-- A pop of an empty buffer is the contract violation PopOnEmpty, alone or beside an edge, whatever the edge does
(U1 and R76 for a model, R130; log entry 4). -/
def Obligations.PopOnEmptyFaults : Prop :=
  ∀ s : State, s.head = s.tail →
    exec .pop s = .fault .popOnEmpty ∧ ∀ ts, exec (.edgePop ts) s = .fault .popOnEmpty

/-- AVAIL (R77): the bit `head != tail` is returned, nothing of the block changes, and asking again gives the same bit; it is
0 after RESET; the port of every clock shows the bit of the state at the start of that clock. -/
def Obligations.AvailResult : Prop :=
  ∀ s : State,
    (∃ t u, exec .avail s = .next t ∧ exec .avail t = .next u ∧
      t.result = .available (decide (s.head.toNat ≠ s.tail.toNat)) ∧ u.result = t.result ∧
      SameBlock s t ∧ ShowsClock none s t) ∧
    (∃ t u, exec .reset s = .next t ∧ exec .avail t = .next u ∧ u.result = .available false) ∧
    ∀ i t, isExternal i = true → exec i s = .next t → t.ports.available = decide (s.head.toNat ≠ s.tail.toNat)

/-- R93: for every interval below 1500 the arm is SYM.ZERO; `acc` is doubled modulo 2^16, `cnt` counts one more, and the
arm alone changes nothing else. (The arm performed alone is log entries 3 and 15.) -/
def Obligations.SymZeroResult : Prop :=
  ∀ (s : State) (e : Timestamp), e.toNat < 1500 → ∃ t,
    decode ⟨.symbol, e.setWidth 40⟩ = .ok (.symZero e) ∧ exec (.symZero e) s = .next t ∧
    t.acc.toNat = 2 * s.acc.toNat % 2 ^ 16 ∧ (s.cnt.toNat ≤ 15 → t.cnt.toNat = s.cnt.toNat + 1) ∧
    t.last = s.last ∧ SameIndices s t ∧ SameBytes s t ∧ SameRecord s t

/-- R94: for every interval from 1500 to 2499 the arm is SYM.ONE; `acc` is doubled modulo 2^16 and 1 is added, `cnt`
counts one more, and the arm alone changes nothing else. (The arm performed alone is log entries 3 and 15.) -/
def Obligations.SymOneResult : Prop :=
  ∀ (s : State) (e : Timestamp), 1500 ≤ e.toNat → e.toNat < 2500 → ∃ t,
    decode ⟨.symbol, e.setWidth 40⟩ = .ok (.symOne e) ∧ exec (.symOne e) s = .next t ∧
    t.acc.toNat = (2 * s.acc.toNat + 1) % 2 ^ 16 ∧ (s.cnt.toNat ≤ 15 → t.cnt.toNat = s.cnt.toNat + 1) ∧
    t.last = s.last ∧ SameIndices s t ∧ SameBytes s t ∧ SameRecord s t

/-- R95: for every interval of 2500 or more the arm is SYM.START; `cnt` is cleared and nothing else changes; an edge at
such an interval clears `cnt`, keeps `acc` and pushes nothing, and a second such edge changes nothing more but `last`. -/
def Obligations.SymStartResult : Prop :=
  ∀ (s : State) (e : Timestamp), 2500 ≤ e.toNat →
    (∃ t, decode ⟨.symbol, e.setWidth 40⟩ = .ok (.symStart e) ∧ exec (.symStart e) s = .next t ∧
      t.cnt.toNat = 0 ∧ t.acc = s.acc ∧ t.last = s.last ∧ SameIndices s t ∧ SameBytes s t ∧ SameRecord s t) ∧
    (∃ t u, exec (.edge (s.last + e)) s = .next t ∧ exec (.edge (t.last + e)) t = .next u ∧
      t.cnt.toNat = 0 ∧ t.acc = s.acc ∧ SameIndices s t ∧ SameBytes s t ∧
      u.cnt = t.cnt ∧ u.acc = t.acc ∧ SameIndices t u ∧ SameBytes t u)

/-- R57: a symbol moves every bit of `acc` up one place, loses the old bit 15, and its own bit becomes bit 0. -/
def Obligations.AccumulatorShiftsOneBit : Prop :=
  ∀ (s : State) (e : Timestamp), ∃ t u, exec (.symZero e) s = .next t ∧ exec (.symOne e) s = .next u ∧
    t.acc.getLsbD 0 = false ∧ u.acc.getLsbD 0 = true ∧
    ∀ k, k < 15 → t.acc.getLsbD (k + 1) = s.acc.getLsbD k ∧ u.acc.getLsbD (k + 1) = s.acc.getLsbD k

/-- EMIT where `cnt` is 16 (41_decoder.md section 2): `acc` is pushed and kept, `cnt` is cleared, nothing else changes.
Where `cnt` is not 16 step 4 of EDGE does nothing (EMIT performed alone is log entries 3 and 14). -/
def Obligations.EmitResult : Prop :=
  ∀ s : State,
    (s.cnt.toNat = 16 → ∃ t, exec .emit s = .next t ∧
      Memory.slot t.mem s.head = some s.acc ∧ t.cnt.toNat = 0 ∧ t.acc = s.acc ∧ t.last = s.last ∧
      t.head.toNat = (s.head.toNat + 1) % 128 ∧
      t.tail.toNat = (if (s.head.toNat + 1) % 128 = s.tail.toNat then (s.tail.toNat + 1) % 128 else s.tail.toNat) ∧
      available t = true ∧ SameBytesBut s.head s t ∧ SameRecord s t) ∧
    (s.cnt.toNat ≠ 16 → exec .emit s = .next s)

/-- EDGE `ts` in every state and for every timestamp (41_decoder.md section 2): `last` becomes `ts`; by the interval modulo
2^32 the frame restarts, or a bit is shifted in, and the sixteenth bit pushes the accumulator; nothing else changes. -/
def Obligations.EdgeResult : Prop :=
  ∀ (s : State) (ts : Timestamp), ∃ t, exec (.edge ts) s = .next t ∧
    t.last = ts ∧ t.result = s.result ∧ ShowsClock (some ts) s t ∧
    (if 2500 ≤ (ts.toNat + 2 ^ 32 - s.last.toNat) % 2 ^ 32 then
      t.cnt.toNat = 0 ∧ t.acc = s.acc ∧ SameIndices s t ∧ SameBytes s t
    else
      t.acc.toNat =
        (2 * s.acc.toNat + (if 1500 ≤ (ts.toNat + 2 ^ 32 - s.last.toNat) % 2 ^ 32 then 1 else 0)) % 2 ^ 16 ∧
      (if s.cnt.toNat = 15 then
        t.cnt.toNat = 0 ∧ Memory.slot t.mem s.head = some t.acc ∧ available t = true ∧
        t.head.toNat = (s.head.toNat + 1) % 128 ∧
        t.tail.toNat =
          (if (s.head.toNat + 1) % 128 = s.tail.toNat then (s.tail.toNat + 1) % 128 else s.tail.toNat) ∧
        SameBytesBut s.head s t
      else
        (s.cnt.toNat < 15 → t.cnt.toNat = s.cnt.toNat + 1) ∧ SameIndices s t ∧ SameBytes s t))

/-- R56: the interval is the difference modulo 2^32: an edge `d` ticks after the previous one, wrapped or not, performs
the arm that the word `d` decodes to, and then step 4. -/
def Obligations.EdgeIsArmThenEmit : Prop :=
  ∀ (s : State) (d : Timestamp), ∃ i t u w,
    decode ⟨.symbol, d.setWidth 40⟩ = .ok i ∧
    exec i { s with last := s.last + d } = .next u ∧ exec .emit u = .next w ∧
    exec (.edge (s.last + d)) s = .next t ∧ SameBlock w t

/-- RESET (42_facade.md section 3; the zeros of `last`, `cnt`, `acc` are decision D5, log entry 13): every register at its
reset value, the buffer empty, no byte of a slot touched; the outputs of the clock are those of the state before. -/
def Obligations.ResetResult : Prop :=
  ∀ s : State, ∃ t, exec .reset s = .next t ∧
    t.last.toNat = 0 ∧ t.cnt.toNat = 0 ∧ t.acc.toNat = 0 ∧ t.head.toNat = 0 ∧ t.tail.toNat = 0 ∧
    available t = false ∧ unread t = [] ∧ SameBytes s t ∧ t.result = s.result ∧ ShowsClock none s t

/-- IDLE (R121; `pop_data` where nothing is available is the free value of log entry 6, as U11 asks): every input word with
its top three bits 0 is IDLE; it changes no register and no slot; the outputs keep showing `available` and, where it is 1,
the slot at `tail`; any number of IDLE clocks leaves the block as it was. -/
def Obligations.IdleChangesNothing : Prop :=
  (∀ junk : BitVec 32, decode ⟨.clock, junk.setWidth 40⟩ = .ok .idle) ∧
  ∀ s : State,
    (∃ t, exec .idle s = .next t ∧ SameBlock s t ∧ t.inputs = s.inputs ∧ t.result = s.result ∧
      t.ports.available = decide (s.head ≠ s.tail) ∧
      (s.head ≠ s.tail → t.ports.popData = memRead s.tail s) ∧ t.ports.cmdValid = false) ∧
    ∀ n : Nat, ∃ u, execAll (List.replicate n .idle) s = .next u ∧ SameBlock s u

/-- EDGE_POP where a command is unread (42_facade.md section 5; the order is decision D4, log entry 12): the POP on the state
at the start of the clock, then the EDGE on the state the POP leaves; the outputs are those of the start of the clock. -/
def Obligations.EdgePopIsPopThenEdge : Prop :=
  ∀ (s : State) (ts : Timestamp), s.head ≠ s.tail → ∃ t u w,
    exec (.edgePop ts) s = .next t ∧ exec .pop s = .next u ∧ exec (.edge ts) u = .next w ∧
    SameBlock w t ∧ t.result = .popped (memRead s.tail s) ∧ t.ports.popData = memRead s.tail s ∧
    ShowsClock (some ts) s t

/-- NOTIFY (42_facade.md section 4, decision D11): a falling edge is an EDGE with that timestamp; a rising edge changes no
register, `last` among them, and no slot. -/
def Obligations.NotifyResult : Prop :=
  ∀ (s : State) (ts : Timestamp),
    (∃ t, exec (.notify true ts) s = .next t ∧ exec (.edge ts) s = .next t ∧ t.last = ts) ∧
    (∃ t, exec (.notify false ts) s = .next t ∧ SameBlock s t ∧ t.result = s.result ∧ ShowsClock none s t)

/-- LOOKUP (42_facade.md section 7, decision D18): a name for each of the seven values, none for any other; nothing else
changes. -/
def Obligations.LookupResult : Prop :=
  ∀ (s : State) (c : Cmd), ∃ t n, exec (.lookup c) s = .next t ∧ t.result = .name n ∧
    (n = some .onOff ↔ c.toNat = 57920) ∧ (n = some .up ↔ c.toNat = 57928) ∧ (n = some .down ↔ c.toNat = 57936) ∧
    (n = some .mute ↔ c.toNat = 57932) ∧ (n = some .left ↔ c.toNat = 57940) ∧ (n = some .right ↔ c.toNat = 57924) ∧
    (n = some .av ↔ c.toNat = 57948) ∧
    SameBlock s t ∧ t.inputs = s.inputs ∧ t.ports = s.ports ∧ t.draws = s.draws

/-- The seven command-code rows (30_encoding.md section 4): each decodes from its value, gives its value, changes nothing of
the block, and LOOKUP of the value gives the row's name. What a data row does when performed is the model's choice (log
entry 16). -/
def Obligations.CommandCodeRows : Prop :=
  ∀ p ∈ [(Instr.cmdOnOff, 57920, CmdName.onOff), (.cmdUp, 57928, .up), (.cmdDown, 57936, .down),
         (.cmdMute, 57932, .mute), (.cmdLeft, 57940, .left), (.cmdRight, 57924, .right), (.cmdAv, 57948, .av)],
    decode ⟨.code, BitVec.ofNat 40 p.2.1⟩ = .ok p.1 ∧
    ∀ s : State, ∃ t u v, exec p.1 s = .next t ∧ t.result = .code v ∧ v.toNat = p.2.1 ∧
      SameBlock s t ∧ t.inputs = s.inputs ∧ t.ports = s.ports ∧ t.draws = s.draws ∧
      exec (.lookup v) s = .next u ∧ u.result = .name (some p.2.2)

/-! ### The whole machine -/

/-- No operation is refused, and none faults but a pop of an empty buffer (95_test_vectors.md P12; R125). -/
def Obligations.FaultsOnlyOnEmptyPop : Prop :=
  ∀ (i : Instr) (s : State),
    (asksPop i = true ∧ s.head = s.tail ∧ exec i s = .fault .popOnEmpty) ∨
    ((asksPop i = false ∨ s.head ≠ s.tail) ∧ ∃ t, exec i s = .next t)

/-- A legal state never gets stuck: a step answers a next state, or the environment asked to pop an empty buffer
(95_test_vectors.md P12). -/
def Obligations.LegalStepAnswers : Prop :=
  ∀ s : State, LegalState s →
    (∃ t, step s = .next t) ∨
    (step s = .fault .popOnEmpty ∧ s.head = s.tail ∧
      ∃ w rest i, s.inputs = w :: rest ∧ decode w = .ok i ∧ asksPop i = true)

/-- Ownership of the state (60_exceptions.md section 5), over every operation. What the consumer does touches neither the
decoder nor `head` nor a slot. What the producer does writes the slot at `head` as it advances `head`, or no slot; it moves
`tail` on an eviction only. A clock of both (EDGE_POP) pops one command and for the rest writes as the producer does, without
an eviction, since the POP comes first (decision D4, log entry 12). What the host does writes no slot. What belongs to no
agent changes nothing of the block. (Internal operations performed alone are log entry 3.) -/
def Obligations.OwnershipOfState : Prop :=
  ∀ (i : Instr) (s t : State), exec i s = .next t →
    (agentsOf i = [.consumer] → SameDecoder s t ∧ t.head = s.head ∧ SameBytes s t) ∧
    (agentsOf i = [.producer] → StoresAtHead s t ∧
      (t.tail ≠ s.tail → count s = 127 ∧ t.head = s.tail ∧ t.tail = s.tail + 1#7)) ∧
    (agentsOf i = [.consumer, .producer] → StoresAtHead s t ∧ t.tail = s.tail + 1#7) ∧
    (agentsOf i = [.host] → SameBytes s t) ∧
    (agentsOf i = [] → SameBlock s t)

/-- Who writes the decoder (10_state.md section 2): `last` changes only by an edge, to that edge's timestamp, or by RESET;
among the operations an environment can ask for, `cnt` and `acc` change only by an edge or by RESET. -/
def Obligations.OnlyEdgesAndResetWriteDecoder : Prop :=
  ∀ (i : Instr) (s t : State), exec i s = .next t → i ≠ .reset →
    (t.last ≠ s.last → edgeOf i = some t.last) ∧
    (isExternal i = true → edgeOf i = none → t.cnt = s.cnt ∧ t.acc = s.acc)

/-- A live slot is never overwritten (20_memory.md section 3): a slot that is unread before and after any operation reads
the same. -/
def Obligations.LiveSlotsAreNeverOverwritten : Prop :=
  ∀ (i : Instr) (s t : State) (j : Index), exec i s = .next t → liveSlot s j → liveSlot t j →
    memRead j t = memRead j s

/-- Every operation, the internal ones too, keeps the memory list canonical and its slots whole. -/
def Obligations.OperationsKeepMemoryForm : Prop :=
  ∀ (i : Instr) (s t : State), Memory.wf s.mem → wholeSlots s.mem → exec i s = .next t →
    Memory.wf t.mem ∧ wholeSlots t.mem

/-- The invariants of R26 (`cnt` at most 15, every live slot written) and the canonical form of memory are kept by every
step of a legal environment. -/
def Obligations.StepKeepsLegalState : Prop :=
  ∀ s t : State, LegalState s → step s = .next t → LegalState t

/-- The transition table of `cnt` (41_decoder.md section 3, R97): by the symbol alone to 0, to the next number, or, from 15,
to 0 with a push; nothing is pushed otherwise. -/
def Obligations.CntTransitionTable : Prop :=
  ∀ (s t : State) (d : Timestamp), s.cnt.toNat ≤ 15 → exec (.edge (s.last + d)) s = .next t →
    (t.cnt.toNat = if 2500 ≤ d.toNat then 0 else (s.cnt.toNat + 1) % 16) ∧
    (t.head ≠ s.head ↔ s.cnt.toNat = 15 ∧ d.toNat < 2500)

/-- The observation port (42_facade.md section 2, decision D20), in every state and every clock an environment can ask for:
`cmd_valid` is 1 exactly where the clock pushes, and then `cmd_data` is the command stored; a clock with an edge (EDGE,
EDGE_POP, a falling NOTIFY) shows 1 exactly where `cnt` is 15 and the interval below 2500, and one without an edge (RESET,
IDLE, POP, AVAIL, a rising NOTIFY) shows 0. -/
def Obligations.CmdValidReportsPush : Prop :=
  ∀ (i : Instr) (s t : State), isExternal i = true → exec i s = .next t →
    (t.ports.cmdValid = true ↔ i ≠ .reset ∧ t.head ≠ s.head) ∧
    (t.ports.cmdValid = true → Memory.slot t.mem s.head = some t.ports.cmdData) ∧
    (∀ ts, edgeOf i = some ts →
      (t.ports.cmdValid = true ↔ s.cnt.toNat = 15 ∧ (ts.toNat + 2 ^ 32 - s.last.toNat) % 2 ^ 32 < 2500)) ∧
    (edgeOf i = none → t.ports.cmdValid = false)

/-- Only differences of timestamps matter (30_encoding.md section 1, R51): shifting `last` and the edge's timestamp by the
same amount, across the wrap too, changes nothing but `last`. -/
def Obligations.OnlyTimeDifferencesMatter : Prop :=
  ∀ (s : State) (ts shift : Timestamp), ∃ t,
    exec (.edge ts) s = .next t ∧
    exec (.edge (ts + shift)) { s with last := s.last + shift } = .next { t with last := t.last + shift }

/-! ### The buffer as a queue -/

/-- The count law (40_ringbuffer.md section 6): INIT gives 0, PUSH adds one up to 127, a legal POP takes one, AVAIL keeps it
and returns whether it is not 0. -/
def Obligations.CountLaw : Prop :=
  ∀ (s : State) (v : Cmd),
    (∃ t, exec .init s = .next t ∧ count t = 0) ∧
    (∃ t, exec (.push v) s = .next t ∧ count t = min (count s + 1) 127) ∧
    (s.head ≠ s.tail → ∃ t, exec .pop s = .next t ∧ count t + 1 = count s) ∧
    (∃ t, exec .avail s = .next t ∧ count t = count s ∧ t.result = .available (decide (count s ≠ 0)))

/-- R74: a PUSH evicts exactly when 127 commands were unread; then the new one is stored, the count stays 127, the dropped
slot is not the one written, keeps its bits and is the next to be written; nothing records the drop; no PUSH leaves the
buffer looking empty, and a PUSH on an empty buffer never evicts. (PUSH alone is log entry 3.) -/
def Obligations.PushEvictsExactlyWhenFull : Prop :=
  ∀ (s t : State) (v : Cmd), exec (.push v) s = .next t →
    (t.tail ≠ s.tail ↔ count s = 127) ∧ (count s = 127 ↔ (s.head.toNat + 1) % 128 = s.tail.toNat) ∧
    (count s = 127 → memRead s.head t = v ∧ count t = 127 ∧ t.tail.toNat = (s.tail.toNat + 1) % 128 ∧
      s.tail ≠ s.head ∧ memRead s.tail t = memRead s.tail s ∧ t.head = s.tail) ∧
    SameDecoder s t ∧ SameRecord s t ∧
    t.head.toNat = (s.head.toNat + 1) % 128 ∧ t.head ≠ t.tail ∧ (s.head = s.tail → t.tail = s.tail)

/-- A PUSH is drop-oldest on the list of unread commands (R9, R80; 40_ringbuffer.md section 6), in every state. -/
def Obligations.PushIsDropOldestEnqueue : Prop :=
  ∀ (s : State) (v : Cmd), ∃ t, exec (.push v) s = .next t ∧ unread t = Receiver.enqueue v (unread s)

/-- A legal POP returns the first of the unread commands and leaves the others. -/
def Obligations.PopTakesOldestUnread : Prop :=
  ∀ s : State, s.head ≠ s.tail → ∃ t v, exec .pop s = .next t ∧ t.result = .popped v ∧ unread s = v :: unread t

/-- From a state at rest a legal POP returns a command that a PUSH wrote, never the free value of an unwritten slot
(93_implementation_defined.md U2). -/
def Obligations.RestingPopReturnsWrittenSlot : Prop :=
  ∀ s t : State, AtRest s → exec .pop s = .next t → ∃ v, Memory.slot s.mem s.tail = some v ∧ t.result = .popped v

/-- FIFO order (95_test_vectors.md P1): from an empty buffer, up to 127 pushes and as many pops return the values in push
order and leave the buffer empty. -/
def Obligations.FifoOrder : Prop :=
  ∀ (s : State) (vs : List Cmd), s.head = s.tail → vs.length ≤ 127 →
    ∃ t u, execAll (vs.map Instr.push) s = .next t ∧ popMany vs.length t = some (vs, u) ∧ u.head = u.tail

/-- Overwrite (95_test_vectors.md P2): from an empty buffer, 127 or more pushes leave the last 127 values, which come back in
push order and leave the buffer empty. -/
def Obligations.OverwriteKeepsNewest : Prop :=
  ∀ (s : State) (vs : List Cmd), s.head = s.tail → 127 ≤ vs.length →
    ∃ t u, execAll (vs.map Instr.push) s = .next t ∧
      popMany 127 t = some (vs.drop (vs.length - 127), u) ∧ u.head = u.tail

/-- The k-th PUSH writes slot k - 1 modulo 128 counted from the first one's slot, whatever pops come between
(20_memory.md section 3). -/
def Obligations.PushesWalkTheSlots : Prop :=
  ∀ (is : List Instr) (s t : State) (v : Cmd),
    (∀ i ∈ is, i = .pop ∨ i = .avail ∨ i = .idle ∨ ∃ c, i = .push c) →
    execAll is s = .next t →
    ∃ u, exec (.push v) t = .next u ∧
      Memory.slot u.mem (s.head + BitVec.ofNat 7 (pushCount is)) = some v

/-- Availability is the consumer's (20_memory.md section 4, 95_test_vectors.md P5): while a command is unread, any number of
edges leaves one unread, and a POP then still answers. -/
def Obligations.EdgesNeverEmptyTheBuffer : Prop :=
  ∀ (s : State) (tss : List Timestamp), s.head ≠ s.tail →
    ∃ t u, execAll (tss.map Instr.edge) s = .next t ∧ available t = true ∧ exec .pop t = .next u

/-- EDGE_POP at a full buffer loses nothing (95_test_vectors.md P15; the order is decision D4, log entry 12): the oldest is
returned, the new command is last, and all others stay. -/
def Obligations.EdgePopAtFullLosesNothing : Prop :=
  ∀ (s : State) (d : Timestamp), count s = 127 → s.cnt.toNat = 15 → d.toNat < 2500 →
    ∃ t v rest, exec (.edgePop (s.last + d)) s = .next t ∧ unread s = v :: rest ∧ t.result = .popped v ∧
      unread t = rest ++ [t.acc] ∧ count t = 127

/-- POP and an EDGE that does not push commute (42_facade.md section 5, case (d)): either order leaves the same block and
returns the same command. -/
def Obligations.PopCommutesWithQuietEdge : Prop :=
  ∀ (s : State) (d : Timestamp), s.head ≠ s.tail → ¬ (s.cnt.toNat = 15 ∧ d.toNat < 2500) →
    ∃ a b c e, exec .pop s = .next a ∧ exec (.edge (s.last + d)) a = .next b ∧
      exec (.edge (s.last + d)) s = .next c ∧ exec .pop c = .next e ∧
      SameBlock b e ∧ b.result = e.result

/-! ### The decoder and the headline results -/

/-- Bit mapping (95_test_vectors.md P7): from any state with `cnt` 0, sixteen edges at intervals below 2500 push exactly one
command, at the sixteenth; its bit 15 - k tells whether interval k was 1500 or more, whatever `acc` held. -/
def Obligations.SixteenBitsMakeOneCommand : Prop :=
  ∀ (s : State) (ds : List Timestamp), s.cnt.toNat = 0 → ds.length = 16 → (∀ d ∈ ds, d.toNat < 2500) →
    ∃ m t v, execAll (edgesAt s.last (ds.take 15)) s = .next m ∧ SameIndices s m ∧ SameBytes s m ∧
      execAll (edgesAt s.last ds) s = .next t ∧ t.cnt.toNat = 0 ∧ t.head = s.head + 1#7 ∧
      Memory.slot t.mem s.head = some v ∧ SameBytesBut s.head s t ∧
      (∀ k (h : k < ds.length), v.getLsbD (15 - k) = decide (1500 ≤ ds[k].toNat)) ∧
      unread t = Receiver.enqueue v (unread s)

/-- A frame start forgets what came before (95_test_vectors.md P8): in any state, an edge at 2500 or more and then sixteen
below it push the one command that the sixteen make, whatever `cnt` and `acc` were. -/
def Obligations.FrameStartForgetsPrefix : Prop :=
  ∀ (s : State) (d : Timestamp) (ds : List Timestamp), 2500 ≤ d.toNat → ds.length = 16 →
    (∀ x ∈ ds, x.toNat < 2500) →
    ∃ t, execAll (edgesAt s.last (d :: ds)) s = .next t ∧ t.cnt.toNat = 0 ∧
      unread t = Receiver.enqueue
        (BitVec.ofNat 16 (numberOf (ds.map fun x => decide (1500 ≤ x.toNat)))) (unread s)

/-- Stale accumulator bits are never seen (41_decoder.md section 3, R103): two states that differ only in the bits of `acc`
above the first `cnt` answer every operation an environment can ask for alike, show the same outputs, and again differ
only there. -/
def Obligations.StaleAccumulatorUnobservable : Prop :=
  ∀ (i : Instr) (s : State) (other : Cmd), isExternal i = true → s.cnt.toNat ≤ 15 →
    (∀ k, k < s.cnt.toNat → other.getLsbD k = s.acc.getLsbD k) →
    exec i s = .fault .popOnEmpty ∧ exec i { s with acc := other } = .fault .popOnEmpty ∨
    ∃ t other', exec i s = .next t ∧ exec i { s with acc := other } = .next { t with acc := other' } ∧
      t.cnt.toNat ≤ 15 ∧ ∀ k, k < t.cnt.toNat → other'.getLsbD k = t.acc.getLsbD k

/-- End to end (95_test_vectors.md P13), over steps and input words: from any state, RESET, a frame start, sixteen bits and
POP return the command the bits make and leave the buffer empty. The first edge, at 2500 or later, is a frame start because
RESET leaves `last` at 0, which is the spec's decision D5 (log entry 13, unsafe). -/
def Obligations.ResetFramePopReturnsCommand : Prop :=
  ∀ (s : State) (start : Timestamp) (ds : List Timestamp) (rest : List OpWord),
    2500 ≤ start.toNat → ds.length = 16 → (∀ d ∈ ds, d.toNat < 2500) →
    s.inputs = (Instr.reset :: .edge start :: (edgesAt start ds ++ [.pop])).map encode ++ rest →
    ∃ t : State, Host.Core.run core 19 s = .next t ∧ t.inputs = rest ∧ available t = false ∧
      t.result = .popped (BitVec.ofNat 16 (numberOf (ds.map fun d => decide (1500 ≤ d.toNat))))

/-- The block is the receiver (R1, R2, R119): from a state at rest, every operation an environment can ask for does to the
frame's bits and the list of unread commands what it does to the receiver without registers or slots, and faults exactly
where the receiver cannot pop. The receiver takes over three choices: POP before EDGE in one clock (decision D4, log entry
12, unsafe), `last` at 0 after RESET (decision D5, log entry 13, unsafe), and the fault on an empty pop (log entry 4). -/
def Obligations.BlockRefinesReceiver : Prop :=
  ∀ (i : Instr) (s : State), isExternal i = true → AtRest s →
    match exec i s with
    | .next t => (receiverOf s).step i = some (receiverOf t)
    | .fault _ => (receiverOf s).step i = none
    | .refused _ => False
end

