-- ==== Sys2Proof/Laws/Encoding.lean ====
section
/-! SUPPORT. The fields of an input word read back from the word they were packed into (R53). -/

namespace Sys2Proof

/-- The input word as a number (R53). -/
theorem clockBits_toNat (rst edgeValid pop : Bool) (ts : Timestamp) :
    (clockBits rst edgeValid pop ts).toNat =
      2 ^ 34 * rst.toNat + 2 ^ 33 * edgeValid.toNat + 2 ^ 32 * pop.toNat + ts.toNat := by
  have key (k : BitVec 8) : (k ++ ts).toNat = 2 ^ 32 * k.toNat + ts.toNat := by
    rw [BitVec.toNat_append, ← Nat.shiftLeft_add_eq_or_of_lt ts.isLt, Nat.shiftLeft_eq, Nat.mul_comm]
  refine (key (0#5 ++ BitVec.ofBool rst ++ BitVec.ofBool edgeValid ++ BitVec.ofBool pop)).trans ?_
  cases rst <;> cases edgeValid <;> cases pop <;> simp

/-- An input word lies within its 35 bits. -/
theorem clockBits_lt (rst edgeValid pop : Bool) (ts : Timestamp) :
    (clockBits rst edgeValid pop ts).toNat < 2 ^ 35 := by
  rw [clockBits_toNat]
  have := ts.isLt
  have := Bool.toNat_le rst
  have := Bool.toNat_le edgeValid
  have := Bool.toNat_le pop
  omega

@[simp] theorem rstBit_clockBits (rst edgeValid pop : Bool) (ts : Timestamp) :
    rstBit (clockBits rst edgeValid pop ts) = rst := by
  simp only [rstBit, clockBits, BitVec.getLsbD_append]
  simp

@[simp] theorem edgeBit_clockBits (rst edgeValid pop : Bool) (ts : Timestamp) :
    edgeBit (clockBits rst edgeValid pop ts) = edgeValid := by
  simp only [edgeBit, clockBits, BitVec.getLsbD_append]
  simp

@[simp] theorem popBit_clockBits (rst edgeValid pop : Bool) (ts : Timestamp) :
    popBit (clockBits rst edgeValid pop ts) = pop := by
  simp only [popBit, clockBits, BitVec.getLsbD_append]
  simp

@[simp] theorem tsField_clockBits (rst edgeValid pop : Bool) (ts : Timestamp) :
    tsField (clockBits rst edgeValid pop ts) = ts := by
  apply BitVec.eq_of_toNat_eq
  have := ts.isLt
  rw [tsField, BitVec.extractLsb'_toNat, clockBits_toNat, Nat.shiftRight_zero]
  omega

@[simp] theorem tsField_setWidth (e : Timestamp) : tsField (e.setWidth 40) = e := by
  apply BitVec.eq_of_toNat_eq
  have := e.isLt
  rw [tsField, BitVec.extractLsb'_toNat, BitVec.toNat_setWidth, Nat.shiftRight_zero]
  omega

@[simp] theorem cmdField_setWidth (v : Cmd) : cmdField (v.setWidth 40) = v := by
  apply BitVec.eq_of_toNat_eq
  have := v.isLt
  rw [cmdField, BitVec.extractLsb'_toNat, BitVec.toNat_setWidth, Nat.shiftRight_zero]
  omega

theorem setWidth32_lt (e : Timestamp) : (e.setWidth 40).toNat < 2 ^ 32 := by
  have := e.isLt
  rw [BitVec.toNat_setWidth]
  omega

theorem setWidth16_lt (v : Cmd) : (v.setWidth 40).toNat < 2 ^ 16 := by
  have := v.isLt
  rw [BitVec.toNat_setWidth]
  omega

/-! ### The decoder, lane by lane -/

theorem decode_clock {b : BitVec 40} (h : b.toNat < 2 ^ 35) : decode ⟨.clock, b⟩ = .ok (decodeClock b) := if_pos h

theorem decode_notify {b : BitVec 40} (h : b.toNat < 2 ^ 35) : decode ⟨.notify, b⟩ = decodeNotify b := if_pos h

theorem decode_look {b : BitVec 40} (h : b.toNat < 2 ^ 17) : decode ⟨.look, b⟩ = .ok .avail := if_pos h

theorem decode_symbol (e : Timestamp) : decode ⟨.symbol, e.setWidth 40⟩ = .ok (decodeSymbol e) :=
  (if_pos (setWidth32_lt e)).trans (by rw [tsField_setWidth])

theorem decode_count {b : BitVec 40} (h : b.toNat < 2 ^ 5) : decode ⟨.count, b⟩ = decodeCount b := if_pos h

theorem decode_value (v : Cmd) : decode ⟨.value, v.setWidth 40⟩ = .ok (.push v) :=
  (if_pos (setWidth16_lt v)).trans (by rw [cmdField_setWidth])

theorem decode_name (c : Cmd) : decode ⟨.name, c.setWidth 40⟩ = .ok (.lookup c) :=
  (if_pos (setWidth16_lt c)).trans (by rw [cmdField_setWidth])

theorem decode_code (c : Cmd) : decode ⟨.code, c.setWidth 40⟩ = decodeCode c :=
  (if_pos (setWidth16_lt c)).trans (by rw [cmdField_setWidth])

/-- A word wider than its format is refused. -/
theorem decode_tooWide {w : OpWord} (h : 2 ^ w.lane.width ≤ w.bits.toNat) : decode w = .error .tooWide :=
  if_neg (Nat.not_lt.2 h)

end Sys2Proof
end

