-- ==== Sys2Proof/Laws/Memory.lean ====
section
/-! SUPPORT. The laws of the memory list: reading what was written, the canonical form, whole slots. -/

namespace Sys2Proof.Machine

/-- A read of the address just written gives the byte written. -/
@[simp] theorem Memory.read_write_same (m : List Host.Cell) (a : Nat) (v : Byte) :
    Memory.read (Memory.write m a v) a = some v := by
  induction m with
  | nil => simp [Memory.write, Memory.read]
  | cons c rest ih =>
    obtain ⟨k, b⟩ := c
    rcases Nat.lt_trichotomy a k with h | h | h
    · simp [Memory.write, Memory.read, h]
    · simp [Memory.write, Memory.read, h]
    · simp [Memory.write, Memory.read, Nat.not_lt.2 h.le, h.ne', ih]

/-- A write leaves every other address alone. -/
theorem Memory.read_write_other (m : List Host.Cell) {a k : Nat} (v : Byte) (h : a ≠ k) :
    Memory.read (Memory.write m k v) a = Memory.read m a := by
  induction m with
  | nil => simp [Memory.write, Memory.read, h]
  | cons c rest ih =>
    obtain ⟨j, b⟩ := c
    simp only [Memory.write]
    split
    · simp [Memory.read, h]
    · split
      · next hkj => subst hkj; simp [Memory.read, h]
      · simp only [Memory.read, ih]

/-- Every entry after a write is the one written or was there before. -/
theorem Memory.mem_write {m : List Host.Cell} {a : Nat} {v : Byte} {c : Host.Cell}
    (h : c ∈ Memory.write m a v) : c = (a, v) ∨ c ∈ m := by
  induction m with
  | nil => simpa [Memory.write] using h
  | cons d rest ih =>
    obtain ⟨k, b⟩ := d
    simp only [Memory.write] at h
    split at h
    · simpa using h
    · split at h
      · rcases List.mem_cons.1 h with h | h
        · exact .inl h
        · exact .inr (List.mem_cons_of_mem _ h)
      · rcases List.mem_cons.1 h with h | h
        · exact .inr (h ▸ List.mem_cons_self)
        · exact (ih h).imp_right (List.mem_cons_of_mem _)

/-- A write within the array keeps the canonical form. -/
theorem Memory.wf_write {m : List Host.Cell} {a : Nat} {v : Byte} (h : Memory.wf m) (ha : a < Config.memBytes) :
    Memory.wf (Memory.write m a v) := by
  refine ⟨?_, fun c hc => (Memory.mem_write hc).elim (fun e => e ▸ ha) (h.2 c)⟩
  have hs := h.1
  clear h
  induction m with
  | nil => simp [Memory.write]
  | cons d rest ih =>
    obtain ⟨k, b⟩ := d
    obtain ⟨hk, hrest⟩ := List.pairwise_cons.1 hs
    simp only [Memory.write]
    split
    · next hlt =>
      exact List.pairwise_cons.2 ⟨fun c hc => (List.mem_cons.1 hc).elim (fun e => e ▸ hlt)
        (fun hc => hlt.trans (hk c hc)), hs⟩
    · split
      · next heq => exact List.pairwise_cons.2 ⟨fun c hc => heq ▸ hk c hc, hrest⟩
      · next hge hne =>
        refine List.pairwise_cons.2 ⟨fun c hc => ?_, ih hrest⟩
        rcases Memory.mem_write hc with rfl | hc
        · show k < a
          omega
        · exact hk c hc

/-- The two byte addresses of a slot differ. -/
theorem lowByteAddr_ne_highByteAddr (i j : Index) : lowByteAddr i ≠ highByteAddr j := by
  unfold lowByteAddr highByteAddr; omega

theorem lowByteAddr_inj {i j : Index} (h : lowByteAddr i = lowByteAddr j) : i = j := by
  unfold lowByteAddr at h; exact BitVec.eq_of_toNat_eq (by omega)

theorem highByteAddr_inj {i j : Index} (h : highByteAddr i = highByteAddr j) : i = j := by
  unfold highByteAddr at h; exact BitVec.eq_of_toNat_eq (by omega)

theorem lowByteAddr_lt (i : Index) : lowByteAddr i < Config.memBytes := by
  have := i.isLt; unfold lowByteAddr Config.memBytes; omega

theorem highByteAddr_lt (i : Index) : highByteAddr i < Config.memBytes := by
  have := i.isLt; unfold highByteAddr Config.memBytes; omega

/-- Joining a command's two bytes gives the command. -/
@[simp] theorem joinBytes_bytes (v : Cmd) : joinBytes (highByte v) (lowByte v) = v := by
  unfold joinBytes highByte lowByte
  ext k hk
  simp only [BitVec.getElem_append, BitVec.getElem_extractLsb']
  split
  · simpa using BitVec.getLsbD_eq_getElem hk
  · rw [← BitVec.getLsbD_eq_getElem]
    congr 1
    omega

/-- Writing a slot writes its low byte. -/
@[simp] theorem Memory.read_setSlot_low (m : List Host.Cell) (i : Index) (v : Cmd) :
    Memory.read (Memory.setSlot m i v) (lowByteAddr i) = some (lowByte v) := by
  rw [Memory.setSlot, Memory.read_write_other _ _ (lowByteAddr_ne_highByteAddr i i), Memory.read_write_same]

/-- Writing a slot writes its high byte. -/
@[simp] theorem Memory.read_setSlot_high (m : List Host.Cell) (i : Index) (v : Cmd) :
    Memory.read (Memory.setSlot m i v) (highByteAddr i) = some (highByte v) := by
  rw [Memory.setSlot, Memory.read_write_same]

/-- Writing a slot leaves every byte of the others alone. -/
theorem Memory.read_setSlot_other (m : List Host.Cell) (i : Index) (v : Cmd) {a : Nat}
    (hl : a ≠ lowByteAddr i) (hh : a ≠ highByteAddr i) :
    Memory.read (Memory.setSlot m i v) a = Memory.read m a := by
  rw [Memory.setSlot, Memory.read_write_other _ _ hh, Memory.read_write_other _ _ hl]

/-- A slot reads as what was last written to it. -/
@[simp] theorem Memory.slot_setSlot_same (m : List Host.Cell) (i : Index) (v : Cmd) :
    Memory.slot (Memory.setSlot m i v) i = some v := by
  simp [Memory.slot]

/-- Writing a slot leaves every other slot alone. -/
theorem Memory.slot_setSlot_other (m : List Host.Cell) {i j : Index} (v : Cmd) (h : j ≠ i) :
    Memory.slot (Memory.setSlot m i v) j = Memory.slot m j := by
  have h1 : lowByteAddr j ≠ lowByteAddr i := fun e => h (lowByteAddr_inj e)
  have h2 : highByteAddr j ≠ highByteAddr i := fun e => h (highByteAddr_inj e)
  simp only [Memory.slot]
  rw [Memory.read_setSlot_other m i v (lowByteAddr_ne_highByteAddr i j).symm h2,
    Memory.read_setSlot_other m i v h1 (lowByteAddr_ne_highByteAddr j i)]

/-- Writing a slot keeps the canonical form. -/
theorem Memory.wf_setSlot {m : List Host.Cell} (i : Index) (v : Cmd) (h : Memory.wf m) :
    Memory.wf (Memory.setSlot m i v) :=
  Memory.wf_write (Memory.wf_write h (lowByteAddr_lt i)) (highByteAddr_lt i)

end Sys2Proof.Machine
end

