-- ==== Sys2Proof/Laws/State.lean ====
section
/-! SUPPORT. One lemma for each field after each update, so that no proof unfolds a record update. -/

namespace Sys2Proof.Machine

/-! ### `memWrite`: one slot -/

@[simp] theorem memWrite_last (i : Index) (v : Cmd) (s : State) : (memWrite i v s).last = s.last := rfl
@[simp] theorem memWrite_cnt (i : Index) (v : Cmd) (s : State) : (memWrite i v s).cnt = s.cnt := rfl
@[simp] theorem memWrite_acc (i : Index) (v : Cmd) (s : State) : (memWrite i v s).acc = s.acc := rfl
@[simp] theorem memWrite_head (i : Index) (v : Cmd) (s : State) : (memWrite i v s).head = s.head := rfl
@[simp] theorem memWrite_tail (i : Index) (v : Cmd) (s : State) : (memWrite i v s).tail = s.tail := rfl
@[simp] theorem memWrite_mem (i : Index) (v : Cmd) (s : State) : (memWrite i v s).mem = Memory.setSlot s.mem i v := rfl

/-! ### `showPorts`: the model's record of a clock -/

@[simp] theorem showPorts_last (e : Option Timestamp) (s : State) : (showPorts e s).last = s.last := rfl
@[simp] theorem showPorts_cnt (e : Option Timestamp) (s : State) : (showPorts e s).cnt = s.cnt := rfl
@[simp] theorem showPorts_acc (e : Option Timestamp) (s : State) : (showPorts e s).acc = s.acc := rfl
@[simp] theorem showPorts_head (e : Option Timestamp) (s : State) : (showPorts e s).head = s.head := rfl
@[simp] theorem showPorts_tail (e : Option Timestamp) (s : State) : (showPorts e s).tail = s.tail := rfl
@[simp] theorem showPorts_mem (e : Option Timestamp) (s : State) : (showPorts e s).mem = s.mem := rfl
@[simp] theorem showPorts_inputs (e : Option Timestamp) (s : State) : (showPorts e s).inputs = s.inputs := rfl
@[simp] theorem showPorts_ports (e : Option Timestamp) (s : State) : (showPorts e s).ports = portsOf e s := rfl
@[simp] theorem showPorts_result (e : Option Timestamp) (s : State) : (showPorts e s).result = s.result := rfl
@[simp] theorem showPorts_draws (e : Option Timestamp) (s : State) : (showPorts e s).draws = s.draws + 1 := rfl

/-! ### `returning`: the model's record of a result -/

@[simp] theorem returning_last (r : Result) (s : State) : (returning r s).last = s.last := rfl
@[simp] theorem returning_cnt (r : Result) (s : State) : (returning r s).cnt = s.cnt := rfl
@[simp] theorem returning_acc (r : Result) (s : State) : (returning r s).acc = s.acc := rfl
@[simp] theorem returning_head (r : Result) (s : State) : (returning r s).head = s.head := rfl
@[simp] theorem returning_tail (r : Result) (s : State) : (returning r s).tail = s.tail := rfl
@[simp] theorem returning_mem (r : Result) (s : State) : (returning r s).mem = s.mem := rfl
@[simp] theorem returning_inputs (r : Result) (s : State) : (returning r s).inputs = s.inputs := rfl
@[simp] theorem returning_ports (r : Result) (s : State) : (returning r s).ports = s.ports := rfl
@[simp] theorem returning_result (r : Result) (s : State) : (returning r s).result = r := rfl
@[simp] theorem returning_draws (r : Result) (s : State) : (returning r s).draws = s.draws := rfl

/-! ### `initBuffer` and `resetBlock` -/

@[simp] theorem initBuffer_last (s : State) : (initBuffer s).last = s.last := rfl
@[simp] theorem initBuffer_cnt (s : State) : (initBuffer s).cnt = s.cnt := rfl
@[simp] theorem initBuffer_acc (s : State) : (initBuffer s).acc = s.acc := rfl
@[simp] theorem initBuffer_head (s : State) : (initBuffer s).head = 0#7 := rfl
@[simp] theorem initBuffer_tail (s : State) : (initBuffer s).tail = 0#7 := rfl
@[simp] theorem initBuffer_mem (s : State) : (initBuffer s).mem = s.mem := rfl
@[simp] theorem initBuffer_inputs (s : State) : (initBuffer s).inputs = s.inputs := rfl
@[simp] theorem initBuffer_ports (s : State) : (initBuffer s).ports = s.ports := rfl
@[simp] theorem initBuffer_result (s : State) : (initBuffer s).result = s.result := rfl
@[simp] theorem initBuffer_draws (s : State) : (initBuffer s).draws = s.draws := rfl

@[simp] theorem resetBlock_last (s : State) : (resetBlock s).last = Config.lastAtReset := rfl
@[simp] theorem resetBlock_cnt (s : State) : (resetBlock s).cnt = 0#5 := rfl
@[simp] theorem resetBlock_acc (s : State) : (resetBlock s).acc = 0#16 := rfl
@[simp] theorem resetBlock_head (s : State) : (resetBlock s).head = 0#7 := rfl
@[simp] theorem resetBlock_tail (s : State) : (resetBlock s).tail = 0#7 := rfl
@[simp] theorem resetBlock_mem (s : State) : (resetBlock s).mem = s.mem := rfl
@[simp] theorem resetBlock_inputs (s : State) : (resetBlock s).inputs = s.inputs := rfl
@[simp] theorem resetBlock_ports (s : State) : (resetBlock s).ports = s.ports := rfl
@[simp] theorem resetBlock_result (s : State) : (resetBlock s).result = s.result := rfl
@[simp] theorem resetBlock_draws (s : State) : (resetBlock s).draws = s.draws := rfl

/-! ### `pushBuffer` -/

/-- PUSH in one record update. -/
theorem pushBuffer_eq (v : Cmd) (s : State) : pushBuffer v s =
    { s with
      mem := Memory.setSlot s.mem s.head v
      head := advance s.head
      tail := tailAfterPush (advance s.head) s.tail } := rfl

@[simp] theorem pushBuffer_last (v : Cmd) (s : State) : (pushBuffer v s).last = s.last := rfl
@[simp] theorem pushBuffer_cnt (v : Cmd) (s : State) : (pushBuffer v s).cnt = s.cnt := rfl
@[simp] theorem pushBuffer_acc (v : Cmd) (s : State) : (pushBuffer v s).acc = s.acc := rfl
@[simp] theorem pushBuffer_head (v : Cmd) (s : State) : (pushBuffer v s).head = advance s.head := rfl
@[simp] theorem pushBuffer_tail (v : Cmd) (s : State) :
    (pushBuffer v s).tail = tailAfterPush (advance s.head) s.tail := rfl
@[simp] theorem pushBuffer_mem (v : Cmd) (s : State) : (pushBuffer v s).mem = Memory.setSlot s.mem s.head v := rfl
@[simp] theorem pushBuffer_inputs (v : Cmd) (s : State) : (pushBuffer v s).inputs = s.inputs := rfl
@[simp] theorem pushBuffer_ports (v : Cmd) (s : State) : (pushBuffer v s).ports = s.ports := rfl
@[simp] theorem pushBuffer_result (v : Cmd) (s : State) : (pushBuffer v s).result = s.result := rfl
@[simp] theorem pushBuffer_draws (v : Cmd) (s : State) : (pushBuffer v s).draws = s.draws := rfl

/-! ### `popBuffer` -/

@[simp] theorem popBuffer_last (s : State) : (popBuffer s).last = s.last := rfl
@[simp] theorem popBuffer_cnt (s : State) : (popBuffer s).cnt = s.cnt := rfl
@[simp] theorem popBuffer_acc (s : State) : (popBuffer s).acc = s.acc := rfl
@[simp] theorem popBuffer_head (s : State) : (popBuffer s).head = s.head := rfl
@[simp] theorem popBuffer_tail (s : State) : (popBuffer s).tail = advance s.tail := rfl
@[simp] theorem popBuffer_mem (s : State) : (popBuffer s).mem = s.mem := rfl
@[simp] theorem popBuffer_inputs (s : State) : (popBuffer s).inputs = s.inputs := rfl
@[simp] theorem popBuffer_ports (s : State) : (popBuffer s).ports = s.ports := rfl
@[simp] theorem popBuffer_result (s : State) : (popBuffer s).result = .popped (memRead s.tail s) := rfl
@[simp] theorem popBuffer_draws (s : State) : (popBuffer s).draws = s.draws := rfl

/-! ### The symbol arms and EMIT -/

@[simp] theorem symZeroArm_cnt (s : State) : (symZeroArm s).cnt = s.cnt + 1#5 := rfl
@[simp] theorem symZeroArm_acc (s : State) : (symZeroArm s).acc = shl1 s.acc := rfl
@[simp] theorem symOneArm_cnt (s : State) : (symOneArm s).cnt = s.cnt + 1#5 := rfl
@[simp] theorem symOneArm_acc (s : State) : (symOneArm s).acc = shl1Or1 s.acc := rfl
@[simp] theorem symStartArm_cnt (s : State) : (symStartArm s).cnt = 0#5 := rfl
@[simp] theorem symStartArm_acc (s : State) : (symStartArm s).acc = s.acc := rfl

@[simp] theorem symbolArm_last (y : Symbol) (s : State) : (symbolArm y s).last = s.last := by cases y <;> rfl
@[simp] theorem symbolArm_head (y : Symbol) (s : State) : (symbolArm y s).head = s.head := by cases y <;> rfl
@[simp] theorem symbolArm_tail (y : Symbol) (s : State) : (symbolArm y s).tail = s.tail := by cases y <;> rfl
@[simp] theorem symbolArm_mem (y : Symbol) (s : State) : (symbolArm y s).mem = s.mem := by cases y <;> rfl
@[simp] theorem symbolArm_inputs (y : Symbol) (s : State) : (symbolArm y s).inputs = s.inputs := by cases y <;> rfl
@[simp] theorem symbolArm_ports (y : Symbol) (s : State) : (symbolArm y s).ports = s.ports := by cases y <;> rfl
@[simp] theorem symbolArm_result (y : Symbol) (s : State) : (symbolArm y s).result = s.result := by cases y <;> rfl
@[simp] theorem symbolArm_draws (y : Symbol) (s : State) : (symbolArm y s).draws = s.draws := by cases y <;> rfl

@[simp] theorem emitCommand_last (s : State) : (emitCommand s).last = s.last := rfl
@[simp] theorem emitCommand_cnt (s : State) : (emitCommand s).cnt = 0#5 := rfl
@[simp] theorem emitCommand_acc (s : State) : (emitCommand s).acc = s.acc := rfl
@[simp] theorem emitCommand_head (s : State) : (emitCommand s).head = advance s.head := rfl
@[simp] theorem emitCommand_tail (s : State) :
    (emitCommand s).tail = tailAfterPush (advance s.head) s.tail := rfl
@[simp] theorem emitCommand_mem (s : State) : (emitCommand s).mem = Memory.setSlot s.mem s.head s.acc := rfl
@[simp] theorem emitCommand_inputs (s : State) : (emitCommand s).inputs = s.inputs := rfl
@[simp] theorem emitCommand_ports (s : State) : (emitCommand s).ports = s.ports := rfl
@[simp] theorem emitCommand_result (s : State) : (emitCommand s).result = s.result := rfl
@[simp] theorem emitCommand_draws (s : State) : (emitCommand s).draws = s.draws := rfl

/-! ### Step 4 of EDGE, and EDGE -/

@[simp] theorem emitIfComplete_last (s : State) : (emitIfComplete s).last = s.last := by
  unfold emitIfComplete; split <;> simp
@[simp] theorem emitIfComplete_acc (s : State) : (emitIfComplete s).acc = s.acc := by
  unfold emitIfComplete; split <;> simp
@[simp] theorem emitIfComplete_inputs (s : State) : (emitIfComplete s).inputs = s.inputs := by
  unfold emitIfComplete; split <;> simp
@[simp] theorem emitIfComplete_ports (s : State) : (emitIfComplete s).ports = s.ports := by
  unfold emitIfComplete; split <;> simp
@[simp] theorem emitIfComplete_result (s : State) : (emitIfComplete s).result = s.result := by
  unfold emitIfComplete; split <;> simp
@[simp] theorem emitIfComplete_draws (s : State) : (emitIfComplete s).draws = s.draws := by
  unfold emitIfComplete; split <;> simp

@[simp] theorem edgeDecoder_last (ts : Timestamp) (s : State) : (edgeDecoder ts s).last = ts := by simp [edgeDecoder]
@[simp] theorem edgeDecoder_inputs (ts : Timestamp) (s : State) : (edgeDecoder ts s).inputs = s.inputs := by
  simp [edgeDecoder]
@[simp] theorem edgeDecoder_ports (ts : Timestamp) (s : State) : (edgeDecoder ts s).ports = s.ports := by
  simp [edgeDecoder]
@[simp] theorem edgeDecoder_result (ts : Timestamp) (s : State) : (edgeDecoder ts s).result = s.result := by
  simp [edgeDecoder]
@[simp] theorem edgeDecoder_draws (ts : Timestamp) (s : State) : (edgeDecoder ts s).draws = s.draws := by
  simp [edgeDecoder]

/-! ### `present` -/

@[simp] theorem present_inputs (w : OpWord) (s : State) : (present w s).inputs = w :: s.inputs := rfl

/-- Presenting a word and fetching it gives the word and the state as it was. -/
@[simp] theorem fetch_present (w : OpWord) (s : State) : fetch (present w s) = (w, s) := rfl

end Sys2Proof.Machine
end

