-- ==== Sys2Proof/Laws/Operations.lean ====
section
/-! SUPPORT. One lemma for each shared operation, saying once what it can do; and for each meaning, how it answers. -/

namespace Sys2Proof.Machine

/-! ### Operands and flags -/

/-- The three ranges of R52, in numbers. -/
theorem symbolOf_zero_iff (e : Timestamp) : symbolOf e = .zero ↔ e.toNat < 1500 := by
  unfold symbolOf Config.tOne Config.tStart
  simp only [BitVec.lt_def, BitVec.toNat_ofNat]
  split_ifs <;> simp_all

theorem symbolOf_one_iff (e : Timestamp) : symbolOf e = .one ↔ 1500 ≤ e.toNat ∧ e.toNat < 2500 := by
  unfold symbolOf Config.tOne Config.tStart
  simp only [BitVec.lt_def, BitVec.toNat_ofNat]
  split_ifs <;> simp_all

theorem symbolOf_frameStart_iff (e : Timestamp) : symbolOf e = .frameStart ↔ 2500 ≤ e.toNat := by
  unfold symbolOf Config.tOne Config.tStart
  simp only [BitVec.lt_def, BitVec.toNat_ofNat]
  split_ifs <;> simp_all
  omega

/-- The elapsed interval in numbers (R56). -/
theorem elapsed_toNat (ts : Timestamp) (s : State) :
    (elapsed ts s).toNat = (ts.toNat + 2 ^ 32 - s.last.toNat) % 2 ^ 32 := by
  have := s.last.isLt
  simp only [elapsed, BitVec.toNat_sub]
  congr 1
  omega

/-- An advanced index in numbers (R32). -/
theorem advance_toNat (i : Index) : (advance i).toNat = (i.toNat + 1) % 128 := by
  simp [advance, BitVec.toNat_add]

/-- The shift in numbers (R57). -/
theorem shl1_toNat (v : Cmd) : (shl1 v).toNat = 2 * v.toNat % 2 ^ 16 := by
  simp [shl1, BitVec.toNat_shiftLeft, Nat.shiftLeft_eq, Nat.mul_comm]

/-- The shift with a 1 appended, in numbers (R57). -/
theorem shl1Or1_toNat (v : Cmd) : (shl1Or1 v).toNat = (2 * v.toNat + 1) % 2 ^ 16 := by
  have h : shl1Or1 v = BitVec.ofNat 16 (2 * v.toNat + 1) := by
    unfold shl1Or1 shl1
    have h1 : v <<< 1 ||| 1#16 = (v <<< 1) + 1#16 := by
      refine (BitVec.add_eq_or_of_and_eq_zero _ _ ?_).symm
      ext k hk
      cases k <;> simp
    rw [h1]
    apply BitVec.eq_of_toNat_eq
    simp [BitVec.toNat_add, BitVec.toNat_shiftLeft, Nat.shiftLeft_eq, Nat.mul_comm]
  rw [h, BitVec.toNat_ofNat]

/-- `available` is the flag of a non-zero count (R19, R28, R78). -/
theorem available_iff (s : State) : available s = true ↔ s.head ≠ s.tail := by simp [available]

/-- The readable count never reaches 128 (R28). -/
theorem count_lt (s : State) : count s < 128 := (s.head - s.tail).isLt

/-- The readable count in numbers (R28). -/
theorem count_eq (s : State) : count s = (s.head.toNat + 128 - s.tail.toNat) % 128 := by
  have := s.tail.isLt
  simp only [count, BitVec.toNat_sub]
  congr 1
  omega

/-- The indices differ exactly when their numbers do. -/
theorem head_ne_tail_iff (s : State) : s.head ≠ s.tail ↔ s.head.toNat ≠ s.tail.toNat := by
  rw [ne_eq, ne_eq, BitVec.toNat_inj]

/-- An advanced index is another index (`C > 1`). -/
theorem advance_ne (i : Index) : advance i ≠ i := fun h => by
  have := congrArg BitVec.toNat h
  rw [advance_toNat] at this
  omega

/-- Where an advanced index arrives, in numbers. -/
theorem advance_eq_iff (i j : Index) : advance i = j ↔ (i.toNat + 1) % 128 = j.toNat := by
  rw [← advance_toNat]
  exact ⟨congrArg _, BitVec.eq_of_toNat_eq⟩

/-- The interval of an edge `d` ticks after the last one is `d`, wrapped or not (R56). -/
theorem elapsed_last_add (s : State) (d : Timestamp) : elapsed (s.last + d) s = d := by simp [elapsed]

/-- Showing the ports does not touch the interval. -/
@[simp] theorem elapsed_showPorts (ts : Timestamp) (e : Option Timestamp) (s : State) :
    elapsed ts (showPorts e s) = elapsed ts s := rfl

/-- Where `tail` stands after a PUSH, in numbers (R73). -/
theorem pushBuffer_tail_toNat (v : Cmd) (s : State) : (pushBuffer v s).tail.toNat =
    if (s.head.toNat + 1) % 128 = s.tail.toNat then (s.tail.toNat + 1) % 128 else s.tail.toNat := by
  rw [pushBuffer_tail, tailAfterPush]
  simp only [advance_eq_iff]
  split <;> simp [advance_toNat]

/-- A PUSH never leaves the buffer looking empty (R44, R74). -/
theorem available_pushBuffer (v : Cmd) (s : State) : available (pushBuffer v s) = true := by
  rw [available_iff, pushBuffer_head, pushBuffer_tail, tailAfterPush]
  split
  · next h => rw [h]; exact (advance_ne _).symm
  · assumption

/-- A read of the slot a PUSH wrote gives the command pushed. -/
@[simp] theorem memRead_pushBuffer_head (v : Cmd) (s : State) : memRead s.head (pushBuffer v s) = v := by
  simp [memRead]

/-- A PUSH leaves every other slot as it read before. -/
theorem memRead_pushBuffer_other (v : Cmd) (s : State) {i : Index} (h : i ≠ s.head) :
    memRead i (pushBuffer v s) = memRead i s := by
  simp [memRead, Memory.slot_setSlot_other _ _ h]

/-- A slot reads the same in two states with one memory. -/
theorem memRead_congr {s t : State} (h : t.mem = s.mem) (i : Index) : memRead i t = memRead i s := by
  simp [memRead, h]

/-! ### EDGE -/

/-- An edge whose interval is 2500 or more (R95): the count is cleared, and `acc` and the buffer are not touched. -/
theorem edgeDecoder_frameStart {ts : Timestamp} {s : State} (h : 2500 ≤ (elapsed ts s).toNat) :
    edgeDecoder ts s = { s with last := ts, cnt := 0#5 } := by
  simp [edgeDecoder, (symbolOf_frameStart_iff _).2 h, symbolArm, symStartArm, emitIfComplete, Config.frameBits]

/-- The accumulator after a bit-carrying symbol (R57). -/
def shiftedIn (e : Timestamp) (v : Cmd) : Cmd := if e.toNat < 1500 then shl1 v else shl1Or1 v

/-- The state after a bit-carrying symbol and before step 4 of EDGE. -/
def afterBit (ts : Timestamp) (s : State) : State :=
  { s with last := ts, acc := shiftedIn (elapsed ts s) s.acc, cnt := s.cnt + 1#5 }

/-- An edge whose interval is below 2500 (R93, R94, R96): one bit is shifted in, and the sixteenth makes a command. -/
theorem edgeDecoder_bit {ts : Timestamp} {s : State} (h : (elapsed ts s).toNat < 2500) :
    edgeDecoder ts s = if s.cnt = 15#5 then emitCommand (afterBit ts s) else afterBit ts s := by
  have hc : (s.cnt + 1#5 = 16#5) ↔ s.cnt = 15#5 := by
    constructor
    · intro hc; have := congrArg (· - 1#5) hc; simpa using this
    · intro hc; rw [hc]; rfl
  by_cases h1 : (elapsed ts s).toNat < 1500
  · simp [edgeDecoder, (symbolOf_zero_iff _).2 h1, symbolArm, symZeroArm, emitIfComplete, Config.frameBits, hc,
      afterBit, shiftedIn, h1]
  · simp [edgeDecoder, (symbolOf_one_iff _).2 ⟨Nat.not_lt.1 h1, h⟩, symbolArm, symOneArm, emitIfComplete,
      Config.frameBits, hc, afterBit, shiftedIn, h1]

/-- The sixteenth bit makes a command (R96). -/
theorem edgeDecoder_sixteenth {ts : Timestamp} {s : State} (h : (elapsed ts s).toNat < 2500) (hc : s.cnt = 15#5) :
    edgeDecoder ts s = emitCommand (afterBit ts s) := (edgeDecoder_bit h).trans (if_pos hc)

/-- Any other bit is counted, and nothing is pushed (R97). -/
theorem edgeDecoder_earlier {ts : Timestamp} {s : State} (h : (elapsed ts s).toNat < 2500) (hc : s.cnt ≠ 15#5) :
    edgeDecoder ts s = afterBit ts s := (edgeDecoder_bit h).trans (if_neg hc)

/-- Step 4 of EDGE pushes or does nothing. -/
theorem emitIfComplete_cases (s : State) :
    (s.cnt = 16#5 ∧ emitIfComplete s = emitCommand s) ∨ (s.cnt ≠ 16#5 ∧ emitIfComplete s = s) := by
  by_cases h : s.cnt = 16#5 <;> simp [emitIfComplete, Config.frameBits, h]

/-- Step 4 of EDGE reaches the buffer through one PUSH, or not at all. -/
theorem emitIfComplete_buffer (s : State) :
    ((emitIfComplete s).head = s.head ∧ (emitIfComplete s).tail = s.tail ∧ (emitIfComplete s).mem = s.mem) ∨
    ((emitIfComplete s).head = (pushBuffer s.acc s).head ∧ (emitIfComplete s).tail = (pushBuffer s.acc s).tail ∧
      (emitIfComplete s).mem = (pushBuffer s.acc s).mem) := by
  rcases emitIfComplete_cases s with ⟨_, h⟩ | ⟨_, h⟩ <;> rw [h]
  · exact .inr ⟨by simp, by simp, by simp⟩
  · exact .inl ⟨rfl, rfl, rfl⟩

/-- EDGE reaches the buffer through one PUSH of the accumulator, or not at all (R44). -/
theorem edgeDecoder_buffer (ts : Timestamp) (s : State) :
    ((edgeDecoder ts s).head = s.head ∧ (edgeDecoder ts s).tail = s.tail ∧ (edgeDecoder ts s).mem = s.mem) ∨
    ∃ v, (edgeDecoder ts s).head = (pushBuffer v s).head ∧ (edgeDecoder ts s).tail = (pushBuffer v s).tail ∧
      (edgeDecoder ts s).mem = (pushBuffer v s).mem := by
  by_cases hb : 2500 ≤ (elapsed ts s).toNat
  · rw [edgeDecoder_frameStart hb]; exact .inl ⟨rfl, rfl, rfl⟩
  · rw [edgeDecoder_bit (Nat.not_le.1 hb)]
    split
    · exact .inr ⟨(afterBit ts s).acc, by simp [afterBit], by simp [afterBit], by simp [afterBit]⟩
    · exact .inl ⟨rfl, rfl, rfl⟩

/-- A PUSH that moves `tail` found the buffer full, and `head` arrives where `tail` was (R74). -/
theorem pushBuffer_evicts {v : Cmd} {s : State} (h : (pushBuffer v s).tail ≠ s.tail) :
    count s = 127 ∧ (pushBuffer v s).head = s.tail ∧ (pushBuffer v s).tail = s.tail + 1#7 := by
  rw [pushBuffer_tail, tailAfterPush] at h
  split at h
  · next he =>
    refine ⟨?_, by rw [pushBuffer_head, he], by rw [pushBuffer_tail, tailAfterPush, if_pos he]; rfl⟩
    rw [advance_eq_iff] at he
    rw [count_eq]
    have := s.head.isLt
    have := s.tail.isLt
    omega
  · exact absurd rfl h

/-! ### The slots a PUSH leaves whole -/

/-- Writing a slot keeps every slot whole (R33). -/
theorem wholeSlots_setSlot {m : List Host.Cell} (i : Index) (v : Cmd) (h : wholeSlots m) :
    wholeSlots (Memory.setSlot m i v) := by
  intro j
  by_cases hj : j = i
  · subst hj; simp
  · have h1 : lowByteAddr j ≠ lowByteAddr i := fun e => hj (lowByteAddr_inj e)
    have h2 : highByteAddr j ≠ highByteAddr i := fun e => hj (highByteAddr_inj e)
    rw [Memory.read_setSlot_other m i v h1 (lowByteAddr_ne_highByteAddr j i),
      Memory.read_setSlot_other m i v (lowByteAddr_ne_highByteAddr i j).symm h2]
    exact h j

/-- Operations performed one list after another. -/
theorem execAll_append {a : List Instr} {s t : State} (b : List Instr) (h : execAll a s = .next t) :
    execAll (a ++ b) s = execAll b t := by
  induction a generalizing s with
  | nil => cases h; rfl
  | cons i rest ih =>
    simp only [execAll, List.cons_append] at h ⊢
    split at h
    · exact ih h
    · cases h
    · cases h

/-! ### How each meaning answers -/

theorem exec_reset (s : State) : exec .reset s = .next (resetBlock (showPorts none s)) := rfl
theorem exec_idle (s : State) : exec .idle s = .next (showPorts none s) := rfl
theorem exec_avail (s : State) :
    exec .avail s = .next (returning (.available (available s)) (showPorts none s)) := rfl
theorem exec_edge (ts : Timestamp) (s : State) :
    exec (.edge ts) s = .next (edgeDecoder ts (showPorts (some ts) s)) := rfl
theorem exec_symZero (e : Timestamp) (s : State) : exec (.symZero e) s = .next (symZeroArm s) := rfl
theorem exec_symOne (e : Timestamp) (s : State) : exec (.symOne e) s = .next (symOneArm s) := rfl
theorem exec_symStart (e : Timestamp) (s : State) : exec (.symStart e) s = .next (symStartArm s) := rfl
theorem exec_emit (s : State) : exec .emit s = .next (emitIfComplete s) := rfl
theorem exec_push (v : Cmd) (s : State) : exec (.push v) s = .next (pushBuffer v s) := rfl
theorem exec_init (s : State) : exec .init s = .next (initBuffer s) := rfl
theorem exec_lookup (c : Cmd) (s : State) : exec (.lookup c) s = .next (returning (.name (nameOf c)) s) := rfl

/-- POP where a command is unread (R75). -/
theorem exec_pop_of_available {s : State} (h : available s = true) :
    exec .pop s = .next (popBuffer (showPorts none s)) := by simp [exec, execPop, h]

/-- POP where none is (R76). -/
theorem exec_pop_of_empty {s : State} (h : available s = false) : exec .pop s = .fault .popOnEmpty := by
  simp [exec, execPop, h]

/-- EDGE_POP where a command is unread (R120). -/
theorem exec_edgePop_of_available {s : State} (ts : Timestamp) (h : available s = true) :
    exec (.edgePop ts) s = .next (edgeDecoder ts (popBuffer (showPorts (some ts) s))) := by
  simp [exec, execEdgePop, h]

/-- EDGE_POP where none is (R130). -/
theorem exec_edgePop_of_empty {s : State} (ts : Timestamp) (h : available s = false) :
    exec (.edgePop ts) s = .fault .popOnEmpty := by simp [exec, execEdgePop, h]

/-- NOTIFY on a falling edge (R113). -/
theorem exec_notify_falling (ts : Timestamp) (s : State) :
    exec (.notify true ts) s = .next (edgeDecoder ts (showPorts (some ts) s)) := rfl

/-- NOTIFY on a rising edge (R113). -/
theorem exec_notify_rising (ts : Timestamp) (s : State) : exec (.notify false ts) s = .next (showPorts none s) := rfl

end Sys2Proof.Machine
end

