-- ==== Sys2Proof/Laws/PerInstr.lean ====
section
/-! SUPPORT. A statement made once per instruction: its encoding fits the width of its format (R50). -/

namespace Sys2Proof.Laws.Fits

/-- The word the encoder writes for `i` has no bit above the width of its format. -/
def Statement (i : Instr) : Prop := (encode i).bits.toNat < 2 ^ (encode i).lane.width

theorem reset : Statement .reset := clockBits_lt _ _ _ _
theorem idle : Statement .idle := clockBits_lt _ _ _ _
theorem avail : Statement .avail := by unfold Statement; decide
theorem pop : Statement .pop := clockBits_lt _ _ _ _
theorem edge (ts : Timestamp) : Statement (.edge ts) := clockBits_lt _ _ _ _
theorem edgePop (ts : Timestamp) : Statement (.edgePop ts) := clockBits_lt _ _ _ _
theorem symZero (e : Timestamp) : Statement (.symZero e) := setWidth32_lt e
theorem symOne (e : Timestamp) : Statement (.symOne e) := setWidth32_lt e
theorem symStart (e : Timestamp) : Statement (.symStart e) := setWidth32_lt e
theorem emit : Statement .emit := by unfold Statement; decide
theorem push (v : Cmd) : Statement (.push v) := setWidth16_lt v
theorem init : Statement .init := by unfold Statement; decide
theorem notify (falling : Bool) (ts : Timestamp) : Statement (.notify falling ts) := clockBits_lt _ _ _ _
theorem lookup (c : Cmd) : Statement (.lookup c) := setWidth16_lt c
theorem cmdOnOff : Statement .cmdOnOff := setWidth16_lt _
theorem cmdUp : Statement .cmdUp := setWidth16_lt _
theorem cmdDown : Statement .cmdDown := setWidth16_lt _
theorem cmdMute : Statement .cmdMute := setWidth16_lt _
theorem cmdLeft : Statement .cmdLeft := setWidth16_lt _
theorem cmdRight : Statement .cmdRight := setWidth16_lt _
theorem cmdAv : Statement .cmdAv := setWidth16_lt _

end Sys2Proof.Laws.Fits
end

