-- ==== Sys2Proof/Tests/Slice0.lean ====
section
/-! SUPPORT. The model's own tests. Expected values are the spec's: the words from its encodings (30_encoding.md, the rows of
opcode_table.json), the results from 95_test_vectors.md, whose vector each test names. The last part shows for each
obligation with hypotheses that something meets them. -/

namespace Sys2Proof.Tests

open Sys2Proof.Machine

/-! ### Helpers -/

/-- A state with the given registers and slots, everything else as after RESET. -/
def mk (last : Timestamp) (cnt : Count) (acc : Cmd) (head tail : Index) (slots : List (Index × Cmd)) : State :=
  { State.reset with
    last := last, cnt := cnt, acc := acc, head := head, tail := tail
    mem := slots.foldl (fun m p => Memory.setSlot m p.1 p.2) [] }

/-- What a reader sees of the next state, if there is one. -/
def seen {α : Type} (f : State → α) : Host.Outcome State Fault Refusal → Option α
  | .next t => some (f t)
  | .fault _ => none
  | .refused _ => none

/-- `last, cnt, acc, head, tail`, as the vectors write a state. -/
def regs (s : State) : Timestamp × Count × Cmd × Index × Index := (s.last, s.cnt, s.acc, s.head, s.tail)

/-- A slot. -/
def slotOf (i : Index) (s : State) : Option Cmd := Memory.slot s.mem i

/-! ### WellFormed refuses an ill-formed term of each checked kind (R52) -/

theorem test_wellFormed_symZero_refuses : (Instr.symZero 1500#32).wellFormed = false := by decide
theorem test_wellFormed_symOne_refuses_below : (Instr.symOne 1499#32).wellFormed = false := by decide
theorem test_wellFormed_symOne_refuses_above : (Instr.symOne 2500#32).wellFormed = false := by decide
theorem test_wellFormed_symStart_refuses : (Instr.symStart 2499#32).wellFormed = false := by decide

/-! ### Decoding, one word per constructor, written from the spec's encoding of it (R52, R53, R60, R96, R113) -/

/-- ST1. -/
theorem test_decode_reset : decode ⟨.clock, 0x400000000#40⟩ = .ok .reset := by decide
/-- ST2: `rst` wins. -/
theorem test_decode_reset_wins : decode ⟨.clock, 0x7000007D0#40⟩ = .ok .reset := by decide
/-- ST5. -/
theorem test_decode_idle : decode ⟨.clock, 0x0DEADBEEF#40⟩ = .ok .idle := by decide
/-- S2: `OW = 0x1E240`, looked at. -/
theorem test_decode_avail : decode ⟨.look, 0x1E240#40⟩ = .ok .avail := by decide
/-- ST6. -/
theorem test_decode_pop : decode ⟨.clock, 0x100000000#40⟩ = .ok .pop := by decide
/-- DE10. -/
theorem test_decode_edge : decode ⟨.clock, 0x20001869F#40⟩ = .ok (.edge 99999#32) := by decide
/-- ST7. -/
theorem test_decode_edgePop : decode ⟨.clock, 0x3000007D0#40⟩ = .ok (.edgePop 2000#32) := by decide
theorem test_decode_symZero : decode ⟨.symbol, 0x5DB#40⟩ = .ok (.symZero 1499#32) := by decide
theorem test_decode_symOne : decode ⟨.symbol, 0x5DC#40⟩ = .ok (.symOne 1500#32) := by decide
theorem test_decode_symOne_top : decode ⟨.symbol, 0x9C3#40⟩ = .ok (.symOne 2499#32) := by decide
theorem test_decode_symStart : decode ⟨.symbol, 0x9C4#40⟩ = .ok (.symStart 2500#32) := by decide
theorem test_decode_emit : decode ⟨.count, 0x10#40⟩ = .ok .emit := by decide
theorem test_decode_push : decode ⟨.value, 0xE240#40⟩ = .ok (.push 57920#16) := by decide
theorem test_decode_init : decode ⟨.init, 0x0#40⟩ = .ok .init := by decide
/-- ST14. -/
theorem test_decode_notify : decode ⟨.notify, 0x200001388#40⟩ = .ok (.notify true 5000#32) := by decide
theorem test_decode_notify_rising : decode ⟨.notify, 0x000001388#40⟩ = .ok (.notify false 5000#32) := by decide
/-- LK9. -/
theorem test_decode_lookup : decode ⟨.name, 0xE258#40⟩ = .ok (.lookup 57944#16) := by decide
theorem test_decode_cmdOnOff : decode ⟨.code, 0xE240#40⟩ = .ok .cmdOnOff := by decide
theorem test_decode_cmdUp : decode ⟨.code, 0xE248#40⟩ = .ok .cmdUp := by decide
theorem test_decode_cmdDown : decode ⟨.code, 0xE250#40⟩ = .ok .cmdDown := by decide
theorem test_decode_cmdMute : decode ⟨.code, 0xE24C#40⟩ = .ok .cmdMute := by decide
theorem test_decode_cmdLeft : decode ⟨.code, 0xE254#40⟩ = .ok .cmdLeft := by decide
theorem test_decode_cmdRight : decode ⟨.code, 0xE244#40⟩ = .ok .cmdRight := by decide
theorem test_decode_cmdAv : decode ⟨.code, 0xE25C#40⟩ = .ok .cmdAv := by decide

/-- PR1, PR2: the encoder writes the words of the spec's traces. -/
theorem test_encode_words :
    encode (.edge 3000#32) = ⟨.clock, 0x200000BB8#40⟩ ∧ encode (.edgePop 65000#32) = ⟨.clock, 0x30000FDE8#40⟩ ∧
    encode .reset = ⟨.clock, 0x400000000#40⟩ ∧ encode .pop = ⟨.clock, 0x100000000#40⟩ := by decide

/-- The opcode table's words as the host numbers them. -/
theorem test_tableWords :
    decodeTableWord 40 0x400000000 = some .reset ∧ decodeTableWord 24 0 = some .avail ∧
    decodeTableWord 32 2500 = some (.symStart 2500#32) ∧ decodeTableWord 8 16 = some .emit ∧
    decodeTableWord 16 57948 = some .cmdAv ∧ decodeTableWord 16 1 = some (.push 1#16) ∧
    decodeTableWord 0 0 = some .init := by decide

/-! ### One operation each -/

/-- RB6. -/
theorem test_push : seen regs (exec (.push 0xE240#16) (mk 0 0 0 3 3 [])) = some (0, 0, 0, 4, 3) ∧
    seen (slotOf 3) (exec (.push 0xE240#16) (mk 0 0 0 3 3 [])) = some (some 0xE240#16) := by decide
/-- RB9: an eviction in which `tail` wraps. -/
theorem test_push_evicts : seen regs (exec (.push 7#16) (mk 0 0 0 126 127 [])) = some (0, 0, 0, 127, 0) := by decide
/-- RB11. -/
theorem test_pop : seen (fun t => (t.result, t.tail, available t, slotOf 3 t))
    (exec .pop (mk 0 0 0 4 3 [(3, 0xE240#16)])) = some (.popped 0xE240#16, 4, false, some 0xE240#16) := by decide
/-- RB10: the index wraps, one command is left. -/
theorem test_pop_wraps : seen (fun t => (t.result, t.tail, available t))
    (exec .pop (mk 0 0 0 1 127 [(127, 0x1111#16), (0, 0x2222#16)])) = some (.popped 0x1111#16, 0, true) := by decide
/-- RB12, RB13. -/
theorem test_avail : seen State.result (exec .avail (mk 0 0 0 0 127 [])) = some (.available true) ∧
    seen State.result (exec .avail (mk 0 0 0 64 64 [])) = some (.available false) := by decide
/-- RB1. -/
theorem test_init : seen (fun t => (regs t, available t, slotOf 3 t))
    (exec .init (mk 5 2 1 4 3 [(3, 0xE240#16)])) = some ((5, 2, 1, 0, 0), false, some 0xE240#16) := by decide
/-- DE11: the old bit 15 is lost. -/
theorem test_edge_zero : seen regs (exec (.edge 1000) (mk 0 7 0x8001 0 0 [])) = some (1000, 8, 0x0002, 0, 0) := by decide
/-- DE16: the sixteenth bit at a full buffer evicts. -/
theorem test_edge_emits : seen regs (exec (.edge 2000) (mk 0 15 0x7FFF 9 10 [])) = some (2000, 0, 0xFFFF, 10, 11) ∧
    seen (slotOf 9) (exec (.edge 2000) (mk 0 15 0x7FFF 9 10 [])) = some (some 0xFFFF#16) := by decide
/-- DE10: an edge one tick behind `last` is a frame start. -/
theorem test_symStart_behind :
    seen regs (exec (.edge 99999) (mk 100000 3 5 0 0 [])) = some (99999, 0, 5, 0, 0) := by decide
/-- S9, first row: the interval is taken across the wrap. -/
theorem test_edge_wraps : seen regs (exec (.edge 500) (mk 0xFFFFFC18 0 0 0 0 [])) = some (500, 1, 1, 0, 0) := by decide
/-- DE11's arm. -/
theorem test_symZero : seen regs (exec (.symZero 1000) (mk 0 7 0x8001 0 0 [])) = some (0, 8, 0x0002, 0, 0) := by decide
/-- DE12's arm. -/
theorem test_symOne : seen regs (exec (.symOne 2000) (mk 0 6 0x0038 0 0 [])) = some (0, 7, 0x0071, 0, 0) := by decide
/-- DE13's arm. -/
theorem test_symStart : seen regs (exec (.symStart 2600) (mk 0 5 0x001C 0 0 [])) = some (0, 0, 0x001C, 0, 0) := by decide
/-- The end of DE15: `acc` is kept. -/
theorem test_emit : seen regs (exec .emit (mk 24000 16 0xE240 0 0 [])) = some (24000, 0, 0xE240, 1, 0) ∧
    seen (slotOf 0) (exec .emit (mk 24000 16 0xE240 0 0 [])) = some (some 0xE240#16) := by decide
/-- ST1: the ports show the state before the RESET; the slot keeps its bits. -/
theorem test_reset :
    seen regs (exec .reset (mk 1000 15 0x7120 4 3 [(3, 0xE248#16)])) = some (0, 0, 0, 0, 0) ∧
    seen (fun t => (t.ports.available, t.ports.popData, slotOf 3 t))
      (exec .reset (mk 1000 15 0x7120 4 3 [(3, 0xE248#16)])) = some (true, 0xE248#16, some 0xE248#16) := by decide
/-- ST4. -/
theorem test_idle : seen (fun t => (regs t, t.ports.available, t.ports.popData))
    (exec .idle (mk 24000 0 0xE240 1 0 [(0, 0xE240#16)])) = some ((24000, 0, 0xE240, 1, 0), true, 0xE240#16) := by decide
/-- ST7: popping first, a full buffer loses nothing. -/
theorem test_edgePop_full : seen (fun t => (regs t, t.result, slotOf 9 t))
    (exec (.edgePop 2000) (mk 1000 15 0x7120 9 10 [(10, 0x010A#16)])) =
    some ((2000, 0, 0xE240, 10, 11), .popped 0x010A#16, some 0xE240#16) := by decide
/-- ST11. -/
theorem test_edgePop_quiet : seen (fun t => (regs t, t.result))
    (exec (.edgePop 2000) (mk 1000 3 0x0007 4 3 [(3, 0xE248#16)])) =
    some ((2000, 4, 0x000E, 4, 4), .popped 0xE248#16) := by decide
/-- ST13, ST14. -/
theorem test_notify : seen regs (exec (.notify false 5000) (mk 7 3 1 0 0 [])) = some (7, 3, 1, 0, 0) ∧
    seen regs (exec (.notify true 5000) (mk 0 0 0 0 0 [])) = some (5000, 0, 0, 0, 0) := by decide
/-- The observation port's table, second and third rows (ST12, DE17). -/
theorem test_cmdPort : seen (fun t => (t.ports.cmdValid, t.ports.cmdData))
      (exec (.edge 3000) (mk 1000 15 0x7120 0 0 [])) = some (true, 0xE241#16) ∧
    seen (fun t => t.ports.cmdValid) (exec (.edge 4500) (mk 1000 15 0x7120 0 0 [])) = some false := by decide
/-- DE27: the first step after reset, placed by the host's word. -/
theorem test_step_placed :
    seen regs (step (State.reset.withFetchWord 40 0x2000004B0)) = some (1200, 1, 0, 0, 0) := by decide
/-- LK3, LK5. -/
theorem test_lookup : seen State.result (exec (.lookup 57936) State.reset) = some (.name (some .down)) ∧
    seen State.result (exec (.lookup 57940) State.reset) = some (.name (some .left)) := by decide
/-- LK8, LK9, LK10. -/
theorem test_lookup_unknown : nameOf 0 = none ∧ nameOf 57944 = none ∧ nameOf 65535 = none := by decide
/-- R60's values, as the seven rows give them back. -/
theorem test_codes : seen State.result (exec .cmdOnOff State.reset) = some (.code 57920) ∧
    seen State.result (exec .cmdUp State.reset) = some (.code 57928) ∧
    seen State.result (exec .cmdDown State.reset) = some (.code 57936) ∧
    seen State.result (exec .cmdMute State.reset) = some (.code 57932) ∧
    seen State.result (exec .cmdLeft State.reset) = some (.code 57940) ∧
    seen State.result (exec .cmdRight State.reset) = some (.code 57924) ∧
    seen State.result (exec .cmdAv State.reset) = some (.code 57948) := by decide

/-! ### Something meets the hypotheses of each obligation that has any, at the boundaries of its clauses -/

/-- Three unread commands, five bits into a frame, words waiting. -/
def busy : State :=
  { mk 100000 5 0x0013 1 126 [(126, 0xE240#16), (127, 0xE244#16), (0, 0xE248#16)] with
    inputs := [⟨.clock, 0x300018A88#40⟩, ⟨.clock, 0x100000000#40⟩, ⟨.look, 0x1E240#40⟩] }

/-- A full buffer, one bit short of a frame; only the oldest slots are written out (R74's fourth example). -/
def full : State := mk 1000 15 0x7120 9 10 [(10, 0x010A#16), (11, 0x010B#16)]

/-- An empty buffer whose indices are about to wrap. -/
def drained : State := mk 1000 0 0xFFFF 127 127 []

/-- Sixteen intervals, both ends of both bit ranges among them. -/
def sixteenIntervals : List Timestamp :=
  [0, 1499, 1500, 2499, 1000, 1000, 1000, 2000] ++ [1000, 1000, 2000, 1000, 1000, 1000, 1000, 2000]

theorem busy_rest : AtRest busy where
  cntSmall := by decide
  memWf := by decide
  memWhole := by unfold wholeSlots; decide
  liveWritten := by unfold liveSlot; decide

theorem busy_legal : LegalState busy where
  rest := busy_rest
  external := by decide

theorem test_witness_TopBitsSelectOperation :
    (0#40).toNat < 2 ^ 35 ∧ (0xFFFFFFFF#40).toNat < 2 ^ 35 ∧ (0x100000000#40).toNat < 2 ^ 35 ∧
    (0x200000000#40).toNat < 2 ^ 35 ∧ (0x3FFFFFFFF#40).toNat < 2 ^ 35 ∧ (0x7FFFFFFFF#40).toNat < 2 ^ 35 := by decide
theorem test_witness_DecodeEncodeRoundTrip :
    (Instr.symZero 0).wellFormed = true ∧ (Instr.symZero 1499).wellFormed = true ∧
    (Instr.symOne 1500).wellFormed = true ∧ (Instr.symOne 2499).wellFormed = true ∧
    (Instr.symStart 2500).wellFormed = true ∧ (Instr.symStart 0xFFFFFFFF).wellFormed = true ∧
    (Instr.edge 0xFFFFFFFF).wellFormed = true := by decide
theorem test_witness_DecodedInstructionsAreWellFormed :
    decode ⟨.symbol, 0xFFFFFFFF#40⟩ = .ok (.symStart 0xFFFFFFFF) := by decide
theorem test_witness_RefusedWordsAreThese :
    decode ⟨.clock, 0x800000000#40⟩ = .error .tooWide ∧ decode ⟨.count, 15#40⟩ = .error .notCountSixteen ∧
    decode ⟨.count, 17#40⟩ = .error .notCountSixteen ∧ decode ⟨.code, 57944#40⟩ = .error .unknownCode ∧
    decode ⟨.notify, 0x400000000#40⟩ = .error .notNotification ∧
    decode ⟨.notify, 0x100000000#40⟩ = .error .notNotification ∧ decode ⟨.init, 1#40⟩ = .error .tooWide := by decide
theorem test_witness_StepRunsDecodedInstruction :
    (∃ w rest i, busy.inputs = w :: rest ∧ decode w = .ok i) ∧
    (∃ w rest e, (present ⟨.count, 15#40⟩ busy).inputs = w :: rest ∧ decode w = .error e) ∧ drained.inputs = [] :=
  ⟨⟨_, _, .edgePop 101000, rfl, by decide⟩, ⟨_, _, .notCountSixteen, rfl, by decide⟩, rfl⟩
theorem test_witness_PlacedTableWordRunsNext : decodeTableWord 40 0x200000BB8 = some (.edge 3000) := by decide
theorem test_witness_PopResult : busy.head ≠ busy.tail ∧ (mk 0 0 0 4 3 []).head ≠ (mk 0 0 0 4 3 []).tail := by decide
theorem test_witness_PopResult_written : Memory.slot busy.mem busy.tail = some 0xE240#16 := by decide
theorem test_witness_PopOnEmptyFaults : drained.head = drained.tail := by decide
theorem test_witness_AvailResult : isExternal (.edge 3000) = true ∧ ∃ t, exec (.edge 3000) busy = .next t :=
  ⟨rfl, _, rfl⟩
theorem test_witness_SymZeroResult : (1499#32).toNat < 1500 ∧ busy.cnt.toNat ≤ 15 ∧ full.cnt.toNat ≤ 15 := by decide
theorem test_witness_SymOneResult :
    1500 ≤ (1500#32).toNat ∧ (1500#32).toNat < 2500 ∧ 1500 ≤ (2499#32).toNat ∧ (2499#32).toNat < 2500 := by decide
theorem test_witness_SymStartResult : 2500 ≤ (2500#32).toNat ∧ 2500 ≤ (0xFFFFFFFF#32).toNat := by decide
theorem test_witness_EmitResult : (mk 0 16 0xE240 0 0 []).cnt.toNat = 16 ∧ full.cnt.toNat ≠ 16 ∧
    (mk 0 17 0 0 0 []).cnt.toNat ≠ 16 := by decide
/-- Both sides of 2500, of 1500, of `cnt = 15` and of a full buffer. -/
theorem test_witness_EdgeResult :
    (3500 + 2 ^ 32 - full.last.toNat) % 2 ^ 32 = 2500 ∧ (3499 + 2 ^ 32 - full.last.toNat) % 2 ^ 32 = 2499 ∧
    (2500 + 2 ^ 32 - full.last.toNat) % 2 ^ 32 = 1500 ∧ (2499 + 2 ^ 32 - full.last.toNat) % 2 ^ 32 = 1499 ∧
    full.cnt.toNat = 15 ∧ (full.head.toNat + 1) % 128 = full.tail.toNat ∧
    busy.cnt.toNat < 15 ∧ (busy.head.toNat + 1) % 128 ≠ busy.tail.toNat := by decide
theorem test_witness_IdleChangesNothing : busy.head ≠ busy.tail := by decide
theorem test_witness_EdgePopIsPopThenEdge : busy.head ≠ busy.tail ∧ full.head ≠ full.tail := by decide
theorem test_witness_FaultsOnlyOnEmptyPop :
    (asksPop .pop = true ∧ drained.head = drained.tail) ∧ asksPop .idle = false ∧ busy.head ≠ busy.tail := by decide
theorem emptyWithPop_legal : LegalState { State.reset with inputs := [⟨.clock, 0x100000000#40⟩] } :=
  ⟨⟨by decide, by decide, by unfold wholeSlots; decide, by unfold liveSlot; decide⟩, by decide⟩

theorem test_witness_LegalStepAnswers : LegalState busy ∧
    LegalState { State.reset with inputs := [⟨.clock, 0x100000000#40⟩] } := ⟨busy_legal, emptyWithPop_legal⟩
/-- A consumer, a producer (evicting), both, a host operation, and one of no agent. -/
theorem test_witness_OwnershipOfState :
    (∃ t, exec .pop busy = .next t ∧ agentsOf .pop = [.consumer]) ∧
    (∃ t, exec (.edge 2000) full = .next t ∧ agentsOf (.edge 2000) = [.producer] ∧ t.tail ≠ full.tail) ∧
    (∃ t, exec (.edgePop 2000) full = .next t ∧ agentsOf (.edgePop 2000) = [.consumer, .producer]) ∧
    (∃ t, exec .reset busy = .next t ∧ agentsOf .reset = [.host]) ∧
    (∃ t, exec .idle busy = .next t ∧ agentsOf .idle = []) :=
  ⟨⟨_, rfl, rfl⟩, ⟨_, rfl, rfl, by decide⟩, ⟨_, rfl, rfl⟩, ⟨_, rfl, rfl⟩, ⟨_, rfl, rfl⟩⟩
theorem test_witness_OnlyEdgesAndResetWriteDecoder :
    (∃ t, exec (.edge 7) busy = .next t ∧ Instr.edge 7 ≠ .reset ∧ t.last ≠ busy.last) ∧
    (∃ t, exec (.notify false 7) busy = .next t ∧ isExternal (.notify false 7) = true ∧ edgeOf (.notify false 7) = none) :=
  ⟨⟨_, rfl, by decide, by decide⟩, ⟨_, rfl, rfl, rfl⟩⟩
/-- The last of the unread slots, which a push next to it leaves alone; and the second at a full buffer. -/
theorem test_witness_LiveSlotsAreNeverOverwritten :
    (∃ t, exec (.push 1) busy = .next t ∧ liveSlot busy 0 ∧ liveSlot t 0) ∧
    (∃ t, exec (.push 1) full = .next t ∧ liveSlot full 11 ∧ liveSlot t 11) :=
  ⟨⟨_, rfl, by unfold liveSlot; decide, by unfold liveSlot; decide⟩,
   ⟨_, rfl, by unfold liveSlot; decide, by unfold liveSlot; decide⟩⟩
theorem test_witness_OperationsKeepMemoryForm :
    Memory.wf busy.mem ∧ wholeSlots busy.mem ∧ ∃ t, exec (.push 1) busy = .next t :=
  ⟨busy_rest.memWf, busy_rest.memWhole, _, rfl⟩
theorem test_witness_StepKeepsLegalState : LegalState busy ∧ ∃ t, step busy = .next t := ⟨busy_legal, _, rfl⟩
theorem test_witness_CntTransitionTable : full.cnt.toNat ≤ 15 ∧ ∃ t, exec (.edge (full.last + 2499)) full = .next t :=
  ⟨by decide, _, rfl⟩
theorem test_witness_CmdValidReportsPush :
    (∃ t, exec (.edge 3499) full = .next t ∧ isExternal (.edge 3499) = true ∧ t.ports.cmdValid = true) ∧
    (∃ t, exec (.edgePop 3499) full = .next t ∧ edgeOf (.edgePop 3499) = some 3499 ∧ t.ports.cmdValid = true) ∧
    (∃ t, exec (.notify true 3500) full = .next t ∧ edgeOf (.notify true 3500) = some 3500 ∧ t.ports.cmdValid = false) ∧
    (∃ t, exec (.notify false 3499) full = .next t ∧ edgeOf (.notify false 3499) = none) ∧
    (∃ t, exec .reset full = .next t ∧ edgeOf .reset = none ∧ t.head ≠ full.head) :=
  ⟨⟨_, rfl, rfl, by decide⟩, ⟨_, rfl, rfl, by decide⟩, ⟨_, rfl, rfl, by decide⟩, ⟨_, rfl, rfl⟩, ⟨_, rfl, rfl, by decide⟩⟩
theorem test_witness_CountLaw : busy.head ≠ busy.tail := by decide
theorem test_witness_PushEvictsExactlyWhenFull :
    (∃ t, exec (.push 1) full = .next t ∧ count full = 127) ∧ (∃ t, exec (.push 1) busy = .next t ∧ count busy = 3) ∧
    (∃ t, exec (.push 1) drained = .next t ∧ drained.head = drained.tail) :=
  ⟨⟨_, rfl, by decide⟩, ⟨_, rfl, by decide⟩, ⟨_, rfl, rfl⟩⟩
theorem test_witness_PopTakesOldestUnread : full.head ≠ full.tail := by decide
theorem test_witness_RestingPopReturnsWrittenSlot : AtRest busy ∧ ∃ t, exec .pop busy = .next t :=
  ⟨busy_rest, _, rfl⟩
theorem test_witness_FifoOrder :
    drained.head = drained.tail ∧ ((List.range 127).map (BitVec.ofNat 16)).length ≤ 127 := ⟨rfl, by simp⟩
theorem test_witness_OverwriteKeepsNewest :
    drained.head = drained.tail ∧ 127 ≤ ((List.range 128).map (BitVec.ofNat 16)).length := ⟨rfl, by simp⟩
theorem test_witness_PushesWalkTheSlots :
    (∀ i ∈ [Instr.push 1, .pop, .avail, .idle], i = .pop ∨ i = .avail ∨ i = .idle ∨ ∃ c, i = .push c) ∧
    ∃ t, execAll [Instr.push 1, .pop, .avail, .idle] drained = .next t :=
  ⟨by simp, _, rfl⟩
theorem test_witness_EdgesNeverEmptyTheBuffer : full.head ≠ full.tail := by decide
theorem test_witness_EdgePopAtFullLosesNothing :
    count full = 127 ∧ full.cnt.toNat = 15 ∧ (2499#32).toNat < 2500 := by decide
/-- Quiet because the counter is short, and quiet because the interval is long. -/
theorem test_witness_PopCommutesWithQuietEdge :
    (busy.head ≠ busy.tail ∧ ¬ (busy.cnt.toNat = 15 ∧ (0#32).toNat < 2500)) ∧
    (full.head ≠ full.tail ∧ ¬ (full.cnt.toNat = 15 ∧ (2500#32).toNat < 2500)) := by decide
theorem sixteenIntervals_short : ∀ d ∈ sixteenIntervals, d.toNat < 2500 := by simp [sixteenIntervals]

theorem test_witness_SixteenBitsMakeOneCommand :
    drained.cnt.toNat = 0 ∧ sixteenIntervals.length = 16 ∧ ∀ d ∈ sixteenIntervals, d.toNat < 2500 :=
  ⟨by decide, rfl, sixteenIntervals_short⟩
theorem test_witness_FrameStartForgetsPrefix :
    2500 ≤ (2500#32).toNat ∧ sixteenIntervals.length = 16 ∧ ∀ d ∈ sixteenIntervals, d.toNat < 2500 :=
  ⟨by decide, rfl, sixteenIntervals_short⟩
/-- `other` differs from `acc` in bit 5, the first one above the five bits of the frame. -/
theorem test_witness_StaleAccumulatorUnobservable : isExternal (.edge 7) = true ∧ busy.cnt.toNat ≤ 15 ∧
    (∀ k, k < busy.cnt.toNat → (0x0033#16).getLsbD k = busy.acc.getLsbD k) ∧ 0x0033#16 ≠ busy.acc := by decide
theorem test_witness_ResetFramePopReturnsCommand : ∃ s : State,
    s.inputs = (Instr.reset :: .edge 3000 :: (edgesAt 3000 sixteenIntervals ++ [.pop])).map encode ++ busy.inputs ∧
    2500 ≤ (3000#32).toNat ∧ sixteenIntervals.length = 16 ∧ ∀ d ∈ sixteenIntervals, d.toNat < 2500 :=
  ⟨{ busy with inputs :=
      (Instr.reset :: .edge 3000 :: (edgesAt 3000 sixteenIntervals ++ [.pop])).map encode ++ busy.inputs },
   rfl, by decide, rfl, sixteenIntervals_short⟩
/-- At rest with commands unread, where it runs, and at rest with an empty buffer, where it faults and the receiver cannot
pop. -/
theorem test_witness_BlockRefinesReceiver :
    (isExternal (.edgePop 101000) = true ∧ AtRest busy ∧ ∃ t, exec (.edgePop 101000) busy = .next t) ∧
    (isExternal .pop = true ∧ AtRest State.reset ∧ exec .pop State.reset = .fault .popOnEmpty ∧
      (receiverOf State.reset).step .pop = none) :=
  ⟨⟨rfl, busy_rest, _, rfl⟩, rfl, ⟨by decide, by decide, by unfold wholeSlots; decide, by unfold liveSlot; decide⟩, rfl, rfl⟩

end Sys2Proof.Tests
end

/-! # The family of 30_encoding.md: symbols, refused words, the interval, the accumulator's shift -/

namespace Sys2Proof.Machine

/-! ### The arm an interval selects (R52, R92) -/

theorem decodeSymbol_of_lt {e : Timestamp} (h : e.toNat < 1500) : decodeSymbol e = .symZero e := by
  rw [decodeSymbol, (symbolOf_zero_iff e).2 h]

theorem decodeSymbol_of_between {e : Timestamp} (hlo : 1500 ≤ e.toNat) (hhi : e.toNat < 2500) :
    decodeSymbol e = .symOne e := by
  rw [decodeSymbol, (symbolOf_one_iff e).2 ⟨hlo, hhi⟩]

theorem decodeSymbol_of_ge {e : Timestamp} (h : 2500 ≤ e.toNat) : decodeSymbol e = .symStart e := by
  rw [decodeSymbol, (symbolOf_frameStart_iff e).2 h]

/-- The arm's instruction, performed alone, is the arm itself (R92, step 3). -/
theorem exec_decodeSymbol (e : Timestamp) (s : State) :
    exec (decodeSymbol e) s = .next (symbolArm (symbolOf e) s) := by
  unfold decodeSymbol
  cases symbolOf e <;> rfl

/-- Settles O3: one of R52's three ranges holds the interval, and each range has its own arm. -/
theorem symbolRangesDecode : Obligations.SymbolRangesDecode := by
  intro e
  rw [decode_symbol]
  congr 1
  split_ifs with hzero hone
  · exact decodeSymbol_of_lt (by omega)
  · exact decodeSymbol_of_between (by omega) (by omega)
  · exact decodeSymbol_of_ge (by omega)

/-! ### The words each lane refuses (log entries 3, 19, 24) -/

/-- A word that fits its format is refused in three lanes only. -/
theorem decode_ok_of_fits {lane : Lane} {b : BitVec 40} (hfit : b.toNat < 2 ^ lane.width)
    (hcount : lane ≠ .count) (hcode : lane ≠ .code) (hnotify : lane ≠ .notify) :
    ∃ i, decode ⟨lane, b⟩ = .ok i := by
  cases lane with
  | count => exact absurd rfl hcount
  | code => exact absurd rfl hcode
  | notify => exact absurd rfl hnotify
  | clock | look | symbol | value | name | init => exact ⟨_, if_pos hfit⟩

/-- EMIT is selected by the value 16 alone (R96). -/
theorem decodeCount_refuses_iff {b : BitVec 40} (h : b.toNat < 2 ^ 5) :
    (∃ e, decodeCount b = .error e) ↔ b.toNat ≠ 16 := by
  have hfield : b.extractLsb' 0 5 = Config.frameBits ↔ b.toNat = 16 := by
    rw [← BitVec.toNat_inj, BitVec.extractLsb'_toNat, Nat.shiftRight_zero, Nat.mod_eq_of_lt h]
    rfl
  unfold decodeCount
  split <;> simp_all

/-- The seven codes have names, and no other value has one (R60). -/
theorem nameOf_eq_none_iff (c : Cmd) :
    nameOf c = none ↔ c.toNat ∉ [57920, 57928, 57936, 57932, 57940, 57924, 57948] := by
  unfold nameOf
  simp only [← BitVec.toNat_inj, BitVec.toNat_ofNat]
  split_ifs <;> simp_all

theorem decodeCode_refuses_iff (c : Cmd) :
    (∃ e, decodeCode c = .error e) ↔ c.toNat ∉ [57920, 57928, 57936, 57932, 57940, 57924, 57948] := by
  rw [← nameOf_eq_none_iff, decodeCode]
  cases nameOf c <;> simp

/-- A command word is its own field (R55). -/
theorem cmdField_toNat {b : BitVec 40} (h : b.toNat < 2 ^ 16) : (cmdField b).toNat = b.toNat := by
  rw [cmdField, BitVec.extractLsb'_toNat, Nat.shiftRight_zero, Nat.mod_eq_of_lt h]

/-- `rst` is the top bit of the 35 (R53). -/
theorem rstBit_iff {b : BitVec 40} (h : b.toNat < 2 ^ 35) : rstBit b = true ↔ 2 ^ 34 ≤ b.toNat := by
  rw [rstBit, BitVec.getLsbD, Nat.testBit_eq_decide_div_mod_eq, decide_eq_true_iff]
  omega

/-- `pop` is bit 32 (R53). -/
theorem popBit_iff (b : BitVec 40) : popBit b = true ↔ b.toNat / 2 ^ 32 % 2 = 1 := by
  rw [popBit, BitVec.getLsbD, Nat.testBit_eq_decide_div_mod_eq, decide_eq_true_iff]

theorem decodeNotify_refuses_iff {b : BitVec 40} (h : b.toNat < 2 ^ 35) :
    (∃ e, decodeNotify b = .error e) ↔ 2 ^ 34 ≤ b.toNat ∨ b.toNat / 2 ^ 32 % 2 = 1 := by
  rw [← rstBit_iff h, ← popBit_iff, ← Bool.or_eq_true, decodeNotify]
  split <;> simp_all

/-- Settles O6: a word too wide is refused in every lane, and one that fits is refused as its lane's decoder says. -/
theorem refusedWordsAreThese : Obligations.RefusedWordsAreThese := by
  rintro ⟨lane, b⟩
  rcases Nat.lt_or_ge b.toNat (2 ^ lane.width) with hfit | hwide
  · cases lane with
    | count =>
      rw [decode_count hfit, decodeCount_refuses_iff hfit]
      simp [hfit]
    | code =>
      have hdecode : decode ⟨.code, b⟩ = decodeCode (cmdField b) := if_pos hfit
      rw [hdecode, decodeCode_refuses_iff, cmdField_toNat hfit]
      simp [hfit]
    | notify =>
      rw [decode_notify hfit, decodeNotify_refuses_iff hfit]
      simp [hfit]
    | clock | look | symbol | value | name | init =>
      obtain ⟨i, hi⟩ := decode_ok_of_fits hfit (by decide) (by decide) (by decide)
      simp [hi, hfit]
  · exact iff_of_true ⟨_, decode_tooWide hwide⟩ (.inl hwide)

/-! ### EDGE as its arm and step 4 (R56, R92) -/

/-- An edge `d` ticks after the last one: the arm of the interval `d`, then step 4. -/
theorem edgeDecoder_last_add (s : State) (d : Timestamp) : edgeDecoder (s.last + d) s =
    emitIfComplete (symbolArm (symbolOf d) { s with last := s.last + d }) := by
  rw [edgeDecoder, elapsed_last_add]

/-- Step 4 reads nothing of the model's record of a clock. -/
theorem emitIfComplete_withPorts (s : State) (p : Ports) (n : Nat) :
    emitIfComplete { s with ports := p, draws := n } = { emitIfComplete s with ports := p, draws := n } := by
  by_cases h : s.cnt = Config.frameBits
  · simp only [emitIfComplete, if_pos h]; rfl
  · simp only [emitIfComplete, if_neg h]

/-- Showing the ports before an EDGE changes the model's record of the clock alone (R27). -/
theorem edgeDecoder_showPorts (ts : Timestamp) (edge : Option Timestamp) (s : State) :
    edgeDecoder ts (showPorts edge s) =
      { edgeDecoder ts s with ports := portsOf edge s, draws := s.draws + 1 } := by
  simp only [edgeDecoder, elapsed_showPorts, ← emitIfComplete_withPorts]
  cases symbolOf (elapsed ts s) <;> rfl

/-- Settles O22: the interval of an edge at `last + d` is `d`, whether or not the sum wraps. -/
theorem edgeIsArmThenEmit : Obligations.EdgeIsArmThenEmit := by
  intro s d
  refine ⟨_, _, _, _, decode_symbol d, exec_decodeSymbol d _, exec_emit _, exec_edge _ s, ?_⟩
  rw [edgeDecoder_showPorts, edgeDecoder_last_add]
  exact ⟨⟨rfl, rfl, rfl⟩, ⟨rfl, rfl⟩, fun _ => rfl⟩

/-! ### The accumulator's shift, bit by bit (R57) -/

@[simp] theorem shl1_getLsbD_zero (v : Cmd) : (shl1 v).getLsbD 0 = false := by
  simp [shl1]

@[simp] theorem shl1Or1_getLsbD_zero (v : Cmd) : (shl1Or1 v).getLsbD 0 = true := by
  simp [shl1Or1]

theorem shl1_getLsbD_succ (v : Cmd) {k : Nat} (h : k < 15) : (shl1 v).getLsbD (k + 1) = v.getLsbD k := by
  have hwidth : k + 1 < 16 := by omega
  simpa [shl1] using fun _ => hwidth

theorem shl1Or1_getLsbD_succ (v : Cmd) {k : Nat} (h : k < 15) : (shl1Or1 v).getLsbD (k + 1) = v.getLsbD k := by
  simp [shl1Or1, shl1_getLsbD_succ v h]

/-- Settles O19: both bit-carrying arms shift `acc` once and differ in bit 0 alone. -/
theorem accumulatorShiftsOneBit : Obligations.AccumulatorShiftsOneBit := by
  intro s e
  refine ⟨_, _, exec_symZero e s, exec_symOne e s, shl1_getLsbD_zero s.acc, shl1Or1_getLsbD_zero s.acc, ?_⟩
  exact fun k hk => ⟨shl1_getLsbD_succ s.acc hk, shl1Or1_getLsbD_succ s.acc hk⟩

end Sys2Proof.Machine

/-! # The family of 40_ringbuffer.md: INIT, AVAIL, and what a PUSH evicts -/

namespace Sys2Proof.Machine

/-! ### The empty buffer (R19, R77) -/

/-- Equal indices mean that nothing is available (R19). -/
theorem available_eq_false_of_empty {s : State} (h : s.head = s.tail) : available s = false := by
  simp [available, h]

/-- The empty buffer holds no unread command (R28, R43). -/
theorem unread_eq_nil_of_empty {s : State} (h : s.head = s.tail) : unread s = [] := by
  have hcount : count s = 0 := by simp [count, h]
  rw [unread, hcount, List.range_zero, List.map_nil]

/-- `available` compares the indices as numbers (R77). -/
theorem available_eq_decide (s : State) : available s = decide (s.head.toNat ≠ s.tail.toNat) := by
  rw [Bool.eq_iff_iff, available_iff, head_ne_tail_iff, decide_eq_true_iff]

/-- Settles O11: INIT writes the two indices, to the value RESET gives them. -/
theorem initEmptiesBuffer : Obligations.InitEmptiesBuffer := by
  intro s
  have hempty : (initBuffer s).head = (initBuffer s).tail := rfl
  exact ⟨_, _, exec_init s, exec_reset s, rfl, rfl, ⟨rfl, rfl⟩, available_eq_false_of_empty hempty,
    unread_eq_nil_of_empty hempty, ⟨rfl, rfl, rfl⟩, fun _ => rfl, rfl, rfl, rfl, rfl⟩

/-! ### What every clock shows (R27, R114, R120) -/

/-- A POP that answers found a command unread (R75, R76). -/
theorem exec_pop_eq_next {s t : State} (h : exec .pop s = .next t) :
    available s = true ∧ t = popBuffer (showPorts none s) := by
  cases ha : available s with
  | false => rw [exec_pop_of_empty ha] at h; cases h
  | true => rw [exec_pop_of_available ha] at h; cases h; exact ⟨rfl, rfl⟩

/-- An EDGE_POP that answers found a command unread (R120, R130). -/
theorem exec_edgePop_eq_next {ts : Timestamp} {s t : State} (h : exec (.edgePop ts) s = .next t) :
    available s = true ∧ t = edgeDecoder ts (popBuffer (showPorts (some ts) s)) := by
  cases ha : available s with
  | false => rw [exec_edgePop_of_empty ts ha] at h; cases h
  | true => rw [exec_edgePop_of_available ts ha] at h; cases h; exact ⟨rfl, rfl⟩

/-- EDGE, after a clock has shown its ports, leaves the model's record of the clock. -/
theorem showsClock_edgeDecoder {edge : Option Timestamp} {s t : State} (ts : Timestamp) (h : ShowsClock edge s t) :
    ShowsClock edge s (edgeDecoder ts t) := by
  obtain ⟨hinputs, hports, hdraws⟩ := h
  exact ⟨(edgeDecoder_inputs ts t).trans hinputs, (edgeDecoder_ports ts t).trans hports,
    (edgeDecoder_draws ts t).trans hdraws⟩

theorem showsClock_showPorts (edge : Option Timestamp) (s : State) : ShowsClock edge s (showPorts edge s) :=
  ⟨rfl, rfl, rfl⟩

/-- An external operation that answers is one clock: it shows the ports of the state at its start and of its own edge. -/
theorem showsClock_of_isExternal {i : Instr} {s t : State} (hi : isExternal i = true) (h : exec i s = .next t) :
    ShowsClock (edgeOf i) s t := by
  cases i with
  | reset | idle | avail => cases h; exact showsClock_showPorts none s
  | pop =>
    obtain ⟨-, rfl⟩ := exec_pop_eq_next h
    exact showsClock_showPorts none s
  | edge ts => cases h; exact showsClock_edgeDecoder ts (showsClock_showPorts (some ts) s)
  | edgePop ts =>
    obtain ⟨-, rfl⟩ := exec_edgePop_eq_next h
    exact showsClock_edgeDecoder ts (showsClock_showPorts (some ts) s)
  | notify falling ts =>
    cases falling with
    | false => cases h; exact showsClock_showPorts none s
    | true => cases h; exact showsClock_edgeDecoder ts (showsClock_showPorts (some ts) s)
  | symZero | symOne | symStart | emit | push | init | lookup | cmdOnOff | cmdUp | cmdDown | cmdMute | cmdLeft
  | cmdRight | cmdAv => cases hi

/-- Settles O15: AVAIL returns the flag and leaves the indices that the flag compares; every clock shows that flag. -/
theorem availResult : Obligations.AvailResult := by
  intro s
  refine ⟨⟨_, _, exec_avail s, exec_avail _, ?_, rfl, ⟨⟨rfl, rfl, rfl⟩, ⟨rfl, rfl⟩, fun _ => rfl⟩,
    showsClock_showPorts none s⟩, ⟨_, _, exec_reset s, exec_avail _, rfl⟩, fun i t hi h => ?_⟩
  · rw [returning_result, available_eq_decide]
  · obtain ⟨-, hports, -⟩ := showsClock_of_isExternal hi h
    rw [hports]
    exact available_eq_decide s

/-! ### What a PUSH evicts (R74) -/

/-- The buffer is full exactly when `head`, advanced, would meet `tail` (R28, R80). -/
theorem count_eq_full_iff (s : State) : count s = 127 ↔ advance s.head = s.tail := by
  have := s.head.isLt
  have := s.tail.isLt
  rw [count_eq, advance_eq_iff]
  omega

/-- A PUSH on a full buffer drops the oldest command. -/
theorem pushBuffer_tail_of_full (v : Cmd) {s : State} (h : count s = 127) :
    (pushBuffer v s).tail = advance s.tail :=
  if_pos ((count_eq_full_iff s).1 h)

/-- A PUSH on any other buffer drops nothing. -/
theorem pushBuffer_tail_of_not_full (v : Cmd) {s : State} (h : count s ≠ 127) : (pushBuffer v s).tail = s.tail :=
  if_neg (mt (count_eq_full_iff s).2 h)

theorem pushBuffer_tail_ne_iff (v : Cmd) (s : State) : (pushBuffer v s).tail ≠ s.tail ↔ count s = 127 :=
  ⟨fun h => (pushBuffer_evicts h).1, fun h => pushBuffer_tail_of_full v h ▸ advance_ne s.tail⟩

/-- A PUSH on a full buffer writes next the slot it has dropped. -/
theorem pushBuffer_head_of_full (v : Cmd) {s : State} (h : count s = 127) : (pushBuffer v s).head = s.tail :=
  (count_eq_full_iff s).1 h

/-- A PUSH on a full buffer leaves it full. -/
theorem count_pushBuffer_of_full (v : Cmd) {s : State} (h : count s = 127) : count (pushBuffer v s) = 127 := by
  rw [count_eq_full_iff, pushBuffer_head_of_full v h, pushBuffer_tail_of_full v h]

/-- In a full buffer the oldest command is not in the slot that the next PUSH writes. -/
theorem tail_ne_head_of_full {s : State} (h : count s = 127) : s.tail ≠ s.head :=
  (count_eq_full_iff s).1 h ▸ advance_ne s.head

/-- Settles O40: the new `head` meets `tail` exactly when the buffer was full, and `head` then stands at the
dropped slot, one past the slot written. -/
theorem pushEvictsExactlyWhenFull : Obligations.PushEvictsExactlyWhenFull := by
  intro s t v h
  obtain rfl : pushBuffer v s = t := by cases h; rfl
  refine ⟨pushBuffer_tail_ne_iff v s, (count_eq_full_iff s).trans (advance_eq_iff _ _), fun hfull => ?_,
    ⟨rfl, rfl, rfl⟩, ⟨rfl, rfl, rfl, rfl⟩, advance_toNat s.head,
    (available_iff _).1 (available_pushBuffer v s), fun hempty => ?_⟩
  · have hslot : s.tail ≠ s.head := tail_ne_head_of_full hfull
    refine ⟨memRead_pushBuffer_head v s, count_pushBuffer_of_full v hfull, ?_, hslot,
      memRead_pushBuffer_other v s hslot, pushBuffer_head_of_full v hfull⟩
    rw [pushBuffer_tail_of_full v hfull, advance_toNat]
  · exact pushBuffer_tail_of_not_full v fun hfull => tail_ne_head_of_full hfull hempty.symm

end Sys2Proof.Machine

/-! # The family of 41_decoder.md: the two bit-carrying symbols -/

namespace Sys2Proof.Machine

/-- No arm of EDGE touches `last`, the buffer or the model's record of a clock (R93, R94, R95). -/
theorem symbolArm_frame (y : Symbol) (s : State) :
    (symbolArm y s).last = s.last ∧ SameIndices s (symbolArm y s) ∧ SameBytes s (symbolArm y s) ∧
      SameRecord s (symbolArm y s) := by
  cases y <;> exact ⟨rfl, ⟨rfl, rfl⟩, fun _ => rfl, rfl, rfl, rfl, rfl⟩

/-- A bit counter at rest has room for one more bit in its five bits (R14). -/
theorem cnt_succ_toNat {c : BitVec 5} (h : c.toNat ≤ 15) : (c + 1#5).toNat = c.toNat + 1 :=
  BitVec.toNat_add_of_lt (Nat.lt_of_le_of_lt (Nat.succ_le_succ h) (by decide))

/-- Settles O16: an interval below 1500 selects ZERO, whose arm shifts `acc` once and counts the bit. -/
theorem symZeroResult : Obligations.SymZeroResult := by
  intro s e h
  have hdecode : decode ⟨.symbol, e.setWidth 40⟩ = .ok (.symZero e) := by
    rw [decode_symbol, decodeSymbol_of_lt h]
  exact ⟨_, hdecode, exec_symZero e s, shl1_toNat s.acc, cnt_succ_toNat, symbolArm_frame .zero s⟩

/-- Settles O17: an interval from 1500 to 2499 selects ONE, whose arm shifts `acc` once, appends a 1 and counts the bit. -/
theorem symOneResult : Obligations.SymOneResult := by
  intro s e hlo hhi
  have hdecode : decode ⟨.symbol, e.setWidth 40⟩ = .ok (.symOne e) := by
    rw [decode_symbol, decodeSymbol_of_between hlo hhi]
  exact ⟨_, hdecode, exec_symOne e s, shl1Or1_toNat s.acc, cnt_succ_toNat, symbolArm_frame .one s⟩

end Sys2Proof.Machine

/-! # Encoding: what the words of each format decode to -/

namespace Sys2Proof.Machine

/-! ### The names and codes of R60 -/

@[simp] theorem nameOf_codeOf (n : CmdName) : nameOf (codeOf n) = some n := by
  cases n <;> rfl

/-- A command word has a name exactly where it is that name's code. -/
theorem nameOf_eq_some_iff (c : Cmd) (n : CmdName) : nameOf c = some n ↔ c.toNat = (codeOf n).toNat := by
  rw [BitVec.toNat_inj]
  refine ⟨fun h => ?_, fun h => h ▸ nameOf_codeOf n⟩
  unfold nameOf at h
  split_ifs at h <;> cases h <;> assumption

/-- A known code decodes to its own row. -/
theorem decode_codeOf (n : CmdName) : decode ⟨.code, (codeOf n).setWidth 40⟩ = .ok (instrOfName n) := by
  rw [decode_code, decodeCode, nameOf_codeOf]

/-! ### Decoding an encoding (R50, R53) -/

theorem decode_clockBits (rst edgeValid pop : Bool) (ts : Timestamp) :
    decode ⟨.clock, clockBits rst edgeValid pop ts⟩ = .ok (decodeClock (clockBits rst edgeValid pop ts)) :=
  decode_clock (clockBits_lt rst edgeValid pop ts)

theorem decode_encode_edge (ts : Timestamp) : decode (encode (.edge ts)) = .ok (.edge ts) := by
  simp [encode, decode_clockBits, decodeClock]

theorem decode_encode_edgePop (ts : Timestamp) : decode (encode (.edgePop ts)) = .ok (.edgePop ts) := by
  simp [encode, decode_clockBits, decodeClock]

theorem decode_encode_notify (falling : Bool) (ts : Timestamp) :
    decode (encode (.notify falling ts)) = .ok (.notify falling ts) := by
  simp [encode, decode_notify (clockBits_lt false falling false ts), decodeNotify]

/-- A symbol row with an interval of its own range is the arm that the interval selects (R52). -/
theorem decodeSymbol_of_wellFormed_symOne {e : Timestamp} (h : (Instr.symOne e).wellFormed = true) :
    decodeSymbol e = .symOne e := by
  obtain ⟨hlo, hhi⟩ : Config.tOne ≤ e ∧ e < Config.tStart := by simpa [Instr.wellFormed] using h
  exact decodeSymbol_of_between (BitVec.le_def.1 hlo) (BitVec.lt_def.1 hhi)

theorem decodeSymbol_of_wellFormed_symZero {e : Timestamp} (h : (Instr.symZero e).wellFormed = true) :
    decodeSymbol e = .symZero e :=
  decodeSymbol_of_lt (BitVec.lt_def.1 (of_decide_eq_true h))

theorem decodeSymbol_of_wellFormed_symStart {e : Timestamp} (h : (Instr.symStart e).wellFormed = true) :
    decodeSymbol e = .symStart e :=
  decodeSymbol_of_ge (BitVec.le_def.1 (of_decide_eq_true h))

/-- Settles O4: each format packs its operands side by side, and each row's word selects that row. -/
theorem decodeEncodeRoundTrip : Obligations.DecodeEncodeRoundTrip := by
  intro i hwf
  cases i with
  | reset | idle | pop | avail | emit | init => rfl
  | edge ts => exact decode_encode_edge ts
  | edgePop ts => exact decode_encode_edgePop ts
  | notify falling ts => exact decode_encode_notify falling ts
  | symZero e => exact (decode_symbol e).trans (congrArg _ (decodeSymbol_of_wellFormed_symZero hwf))
  | symOne e => exact (decode_symbol e).trans (congrArg _ (decodeSymbol_of_wellFormed_symOne hwf))
  | symStart e => exact (decode_symbol e).trans (congrArg _ (decodeSymbol_of_wellFormed_symStart hwf))
  | push v => exact decode_value v
  | lookup c => exact decode_name c
  | cmdOnOff => exact decode_codeOf .onOff
  | cmdUp => exact decode_codeOf .up
  | cmdDown => exact decode_codeOf .down
  | cmdMute => exact decode_codeOf .mute
  | cmdLeft => exact decode_codeOf .left
  | cmdRight => exact decode_codeOf .right
  | cmdAv => exact decode_codeOf .av

/-! ### Every answer of the decoder is well formed -/

theorem wellFormed_decodeClock (b : BitVec 40) : (decodeClock b).wellFormed = true := by
  unfold decodeClock
  split
  · rfl
  · split <;> rfl

theorem wellFormed_decodeSymbol (e : Timestamp) : (decodeSymbol e).wellFormed = true := by
  rcases Nat.lt_or_ge e.toNat 1500 with hzero | hlo
  · rw [decodeSymbol_of_lt hzero]
    exact decide_eq_true (BitVec.lt_def.2 hzero)
  · rcases Nat.lt_or_ge e.toNat 2500 with hone | hstart
    · rw [decodeSymbol_of_between hlo hone, Instr.wellFormed, Bool.and_eq_true]
      exact ⟨decide_eq_true (BitVec.le_def.2 hlo), decide_eq_true (BitVec.lt_def.2 hone)⟩
    · rw [decodeSymbol_of_ge hstart]
      exact decide_eq_true (BitVec.le_def.2 hstart)

theorem wellFormed_instrOfName (n : CmdName) : (instrOfName n).wellFormed = true := by
  cases n <;> rfl

theorem wellFormed_of_decodeNotify {b : BitVec 40} {i : Instr} (h : decodeNotify b = .ok i) :
    i.wellFormed = true := by
  unfold decodeNotify at h
  split at h <;> cases h
  rfl

theorem wellFormed_of_decodeCount {b : BitVec 40} {i : Instr} (h : decodeCount b = .ok i) :
    i.wellFormed = true := by
  unfold decodeCount at h
  split at h <;> cases h
  rfl

theorem wellFormed_of_decodeCode {c : Cmd} {i : Instr} (h : decodeCode c = .ok i) : i.wellFormed = true := by
  unfold decodeCode at h
  split at h <;> cases h
  exact wellFormed_instrOfName _

/-- Settles O5: the symbol lane alone answers rows with a range, and it selects the row by the interval's own range. -/
theorem decodedInstructionsAreWellFormed : Obligations.DecodedInstructionsAreWellFormed := by
  rintro ⟨lane, b⟩ i h
  rw [decode] at h
  split at h
  · cases lane with
    | clock => cases h; exact wellFormed_decodeClock b
    | symbol => cases h; exact wellFormed_decodeSymbol _
    | notify => exact wellFormed_of_decodeNotify h
    | count => exact wellFormed_of_decodeCount h
    | code => exact wellFormed_of_decodeCode h
    | look | value | name | init => cases h; rfl
  · cases h

/-! ### The top three bits of an input word (R53) -/

/-- `edge_valid` is bit 33 (R53). -/
theorem edgeBit_iff (b : BitVec 40) : edgeBit b = true ↔ b.toNat / 2 ^ 33 % 2 = 1 := by
  rw [edgeBit, BitVec.getLsbD, Nat.testBit_eq_decide_div_mod_eq, decide_eq_true_iff]

theorem tsField_eq_ofNat (b : BitVec 40) : tsField b = BitVec.ofNat 32 b.toNat := by
  rw [tsField, BitVec.extractLsb', Nat.shiftRight_zero]

/-- Settles O2: `rst` wins, and below it the bits 33 and 32 select one of four operations. -/
theorem topBitsSelectOperation : Obligations.TopBitsSelectOperation := by
  intro b hb
  have hrst := rstBit_iff hb
  have hedge := edgeBit_iff b
  have hpop := popBit_iff b
  rw [decode_clock hb, decodeClock, tsField_eq_ofNat]
  congr 1
  cases hr : rstBit b with
  | true =>
    have htop : 2 ^ 34 ≤ b.toNat := hrst.1 hr
    rw [if_pos rfl, if_pos (by omega)]
  | false =>
    have hlow : b.toNat < 2 ^ 34 := by simpa [hr] using hrst
    rw [if_neg (by decide), if_neg (by omega)]
    cases he : edgeBit b <;> cases hp : popBit b <;>
      simp only [he, hp, true_iff, Bool.false_eq_true, false_iff] at hedge hpop
    · rw [if_neg (by omega), if_neg (by omega), if_neg (by omega)]
    · rw [if_neg (by omega), if_neg (by omega), if_pos (by omega)]
    · rw [if_neg (by omega), if_pos (by omega)]
    · rw [if_pos (by omega)]

/-- Settles O1: eight closed words. -/
theorem knownWordsDecode : Obligations.KnownWordsDecode := by
  unfold Obligations.KnownWordsDecode
  decide

/-! ### One step (R119, R172) -/

theorem fetch_of_cons {s : State} {w : OpWord} {rest : List OpWord} (hs : s.inputs = w :: rest) :
    fetch s = (w, { s with inputs := rest }) := by
  rw [fetch, hs]

theorem fetch_of_nil {s : State} (hs : s.inputs = []) : fetch s = (encode .idle, s) := by
  rw [fetch, hs]

/-- A step on a presented operation performs it on the state without that word. -/
theorem step_of_decode_ok {s : State} {w : OpWord} {rest : List OpWord} {i : Instr} (hs : s.inputs = w :: rest)
    (hw : decode w = .ok i) : step s = exec i { s with inputs := rest } := by
  rw [step, fetch_of_cons hs]
  simp only [hw]

theorem step_of_decode_error {s : State} {w : OpWord} {rest : List OpWord} {e : DecodeError}
    (hs : s.inputs = w :: rest) (hw : decode w = .error e) : step s = .refused (.badWord e) := by
  rw [step, fetch_of_cons hs]
  simp only [hw]

/-- Where nothing is left to present, a step is an IDLE clock. -/
theorem step_of_no_inputs {s : State} (hs : s.inputs = []) : step s = exec .idle s := by
  have hidle : decode (encode .idle) = .ok .idle := rfl
  rw [step, fetch_of_nil hs]
  simp only [hidle]

/-- Settles O7: the three answers of fetching and decoding. -/
theorem stepRunsDecodedInstruction : Obligations.StepRunsDecodedInstruction := fun _ =>
  ⟨fun _ _ _ => step_of_decode_ok, fun _ _ _ => step_of_decode_error, step_of_no_inputs⟩

/-- Settles O8: a table word that decodes is a presented word, and fetching it gives the state back. -/
theorem placedTableWordRunsNext : Obligations.PlacedTableWordRunsNext := by
  intro s nbits w i h
  unfold decodeTableWord at h
  split at h
  · next word hword =>
    have hdecode : decode word = .ok i := by
      split at h <;> cases h
      assumption
    rw [State.withFetchWord, hword]
    exact step_of_decode_ok (present_inputs word s) hdecode
  · cases h

/-! ### LOOKUP and the command-code rows (R60, R118) -/

/-- Settles O27: the seven values are the codes of the seven names. -/
theorem lookupResult : Obligations.LookupResult := fun s c =>
  ⟨_, nameOf c, exec_lookup c s, rfl, nameOf_eq_some_iff c .onOff, nameOf_eq_some_iff c .up,
    nameOf_eq_some_iff c .down, nameOf_eq_some_iff c .mute, nameOf_eq_some_iff c .left,
    nameOf_eq_some_iff c .right, nameOf_eq_some_iff c .av,
    ⟨⟨rfl, rfl, rfl⟩, ⟨rfl, rfl⟩, fun _ => rfl⟩, rfl, rfl, rfl⟩

/-- A command-code row, performed, gives its value back (log entry 16). -/
theorem exec_instrOfName (n : CmdName) (s : State) :
    exec (instrOfName n) s = .next (returning (.code (codeOf n)) s) := by
  cases n <;> rfl

/-- The row of one name: its word, its value, its frame, and its name. -/
theorem codeRow (n : CmdName) : decode ⟨.code, (codeOf n).setWidth 40⟩ = .ok (instrOfName n) ∧
    ∀ s : State, ∃ t u v, exec (instrOfName n) s = .next t ∧ t.result = .code v ∧ v.toNat = (codeOf n).toNat ∧
      SameBlock s t ∧ t.inputs = s.inputs ∧ t.ports = s.ports ∧ t.draws = s.draws ∧
      exec (.lookup v) s = .next u ∧ u.result = .name (some n) :=
  ⟨decode_codeOf n, fun s => ⟨_, _, _, exec_instrOfName n s, rfl, rfl,
    ⟨⟨rfl, rfl, rfl⟩, ⟨rfl, rfl⟩, fun _ => rfl⟩, rfl, rfl, rfl, exec_lookup _ s,
    congrArg Result.name (nameOf_codeOf n)⟩⟩

/-- Settles O28: the seven rows of R60, each by the row of its name. -/
theorem commandCodeRows : Obligations.CommandCodeRows := by
  intro p hp
  simp only [List.mem_cons, List.not_mem_nil, or_false] at hp
  rcases hp with rfl | rfl | rfl | rfl | rfl | rfl | rfl
  · exact codeRow .onOff
  · exact codeRow .up
  · exact codeRow .down
  · exact codeRow .mute
  · exact codeRow .left
  · exact codeRow .right
  · exact codeRow .av

end Sys2Proof.Machine

/-! # What an operation can do to the buffer and to the decoder -/

namespace Sys2Proof.Machine

/-! ### Frames -/

/-- Indices and memory list are unchanged. -/
def SameBuffer (s t : State) : Prop := t.head = s.head ∧ t.tail = s.tail ∧ t.mem = s.mem

/-- At most one command was stored (R44): the buffer is unchanged, or as a PUSH leaves it. -/
def StoresAtMostOne (s t : State) : Prop := SameBuffer s t ∨ ∃ v, SameBuffer (pushBuffer v s) t

/-- Of the state of R10 at most `tail` has changed. -/
def SameButTail (s t : State) : Prop := SameDecoder s t ∧ t.head = s.head ∧ t.mem = s.mem

theorem SameBuffer.head_eq {s t : State} (h : SameBuffer s t) : t.head = s.head := h.1

theorem SameBuffer.tail_eq {s t : State} (h : SameBuffer s t) : t.tail = s.tail := h.2.1

theorem SameBuffer.mem_eq {s t : State} (h : SameBuffer s t) : t.mem = s.mem := h.2.2

theorem SameBuffer.refl (s : State) : SameBuffer s s := ⟨rfl, rfl, rfl⟩

theorem SameBuffer.trans {s t u : State} (h : SameBuffer s t) (h' : SameBuffer t u) : SameBuffer s u :=
  ⟨h'.head_eq.trans h.head_eq, h'.tail_eq.trans h.tail_eq, h'.mem_eq.trans h.mem_eq⟩

theorem SameBuffer.sameIndices {s t : State} (h : SameBuffer s t) : SameIndices s t := ⟨h.head_eq, h.tail_eq⟩

theorem sameBytes_of_mem_eq {s t : State} (h : t.mem = s.mem) : SameBytes s t :=
  fun a => congrArg (Memory.read · a) h

theorem SameBuffer.sameBytes {s t : State} (h : SameBuffer s t) : SameBytes s t := sameBytes_of_mem_eq h.mem_eq

theorem SameBuffer.available_eq {s t : State} (h : SameBuffer s t) : available t = available s := by
  rw [available, available, h.head_eq, h.tail_eq]

theorem SameBuffer.count_eq {s t : State} (h : SameBuffer s t) : count t = count s := by
  rw [count, count, h.head_eq, h.tail_eq]

/-- Writing the slot at `head` leaves every other slot's bytes. -/
theorem sameBytesBut_of_mem_eq_setSlot {s t : State} {v : Cmd} (h : t.mem = Memory.setSlot s.mem s.head v) :
    SameBytesBut s.head s t := by
  intro a hlow hhigh
  rw [h, Memory.read_setSlot_other _ _ _ hlow hhigh]

theorem StoresAtMostOne.storesAtHead {s t : State} (h : StoresAtMostOne s t) : StoresAtHead s t := by
  rcases h with hkeep | ⟨v, hpush⟩
  · exact .inl ⟨hkeep.head_eq, hkeep.sameBytes⟩
  · exact .inr ⟨hpush.head_eq, sameBytesBut_of_mem_eq_setSlot hpush.mem_eq⟩

theorem StoresAtMostOne.mem_cases {s t : State} (h : StoresAtMostOne s t) :
    t.mem = s.mem ∨ ∃ v, t.mem = Memory.setSlot s.mem s.head v := by
  rcases h with hkeep | ⟨v, hpush⟩
  · exact .inl hkeep.mem_eq
  · exact .inr ⟨v, hpush.mem_eq⟩

/-- Storing at most one command never empties the buffer (R74). -/
theorem StoresAtMostOne.available {s t : State} (h : StoresAtMostOne s t) (hs : available s = true) :
    available t = true := by
  rcases h with hkeep | ⟨v, hpush⟩
  · rw [hkeep.available_eq, hs]
  · rw [hpush.available_eq, available_pushBuffer]

theorem emitIfComplete_storesAtMostOne (s : State) : StoresAtMostOne s (emitIfComplete s) :=
  (emitIfComplete_buffer s).imp_right fun h => ⟨s.acc, h⟩

theorem edgeDecoder_storesAtMostOne (ts : Timestamp) (s : State) : StoresAtMostOne s (edgeDecoder ts s) :=
  edgeDecoder_buffer ts s

/-! ### The readable count (R28) -/

/-- The buffer is not empty exactly where its count is not 0. -/
theorem available_iff_count (s : State) : available s = true ↔ count s ≠ 0 := by
  have := s.head.isLt
  have := s.tail.isLt
  rw [available_iff, head_ne_tail_iff, count_eq]
  omega

theorem count_pushBuffer (v : Cmd) (s : State) : count (pushBuffer v s) = min (count s + 1) 127 := by
  by_cases hfull : count s = 127
  · rw [count_pushBuffer_of_full v hfull, hfull]
    rfl
  · have := s.head.isLt
    have := s.tail.isLt
    have hadvance : (pushBuffer v s).head.toNat = (s.head.toNat + 1) % 128 := advance_toNat s.head
    rw [count_eq] at hfull ⊢
    rw [count_eq, hadvance, pushBuffer_tail_toNat, if_neg (by omega)]
    omega

theorem count_popBuffer {s : State} (h : available s = true) : count (popBuffer s) + 1 = count s := by
  have := s.head.isLt
  have := s.tail.isLt
  rw [available_iff, head_ne_tail_iff] at h
  rw [count_eq, count_eq, popBuffer_head, popBuffer_tail, advance_toNat]
  omega

/-- After a POP there is room, so that the next PUSH evicts nothing (decision D4). -/
theorem count_popBuffer_ne_full {s : State} (h : available s = true) : count (popBuffer s) ≠ 127 := by
  have := count_popBuffer h
  have := count_lt s
  omega

/-! ### One case split over the operations -/

/-- What an operation of the given agents can do to the buffer; who does not produce leaves the decoder alone. -/
inductive BufferMove : List Agent → State → State → Prop
  | host {s t : State} (h : SameBuffer (initBuffer s) t) : BufferMove [.host] s t
  | producer {s t : State} (h : StoresAtMostOne s t) : BufferMove [.producer] s t
  | look {s t : State} (hd : SameDecoder s t) (h : SameBuffer s t) : BufferMove [.consumer] s t
  | pop {s t : State} (ha : available s = true) (hd : SameDecoder s t) (h : SameBuffer (popBuffer s) t) :
      BufferMove [.consumer] s t
  | edgePop {s t : State} (ha : available s = true) (h : StoresAtMostOne (popBuffer s) t) :
      BufferMove [.consumer, .producer] s t
  | quiet {s t : State} (hd : SameDecoder s t) (h : SameBuffer s t) : BufferMove [] s t

theorem bufferMove_of_exec {i : Instr} {s t : State} (h : exec i s = .next t) : BufferMove (agentsOf i) s t := by
  cases i with
  | reset | init => cases h; exact .host (.refl _)
  | symZero | symOne | symStart => cases h; exact .producer (.inl ⟨rfl, rfl, rfl⟩)
  | edge ts => cases h; exact .producer (edgeDecoder_storesAtMostOne ts _)
  | notify falling ts =>
    cases falling with
    | false => cases h; exact .producer (.inl ⟨rfl, rfl, rfl⟩)
    | true => cases h; exact .producer (edgeDecoder_storesAtMostOne ts _)
  | emit => cases h; exact .producer (emitIfComplete_storesAtMostOne s)
  | push v => cases h; exact .producer (.inr ⟨v, .refl _⟩)
  | avail => cases h; exact .look ⟨rfl, rfl, rfl⟩ ⟨rfl, rfl, rfl⟩
  | pop =>
    obtain ⟨ha, rfl⟩ := exec_pop_eq_next h
    exact .pop ha ⟨rfl, rfl, rfl⟩ ⟨rfl, rfl, rfl⟩
  | edgePop ts =>
    obtain ⟨ha, rfl⟩ := exec_edgePop_eq_next h
    exact .edgePop ha (edgeDecoder_storesAtMostOne ts _)
  | idle | lookup | cmdOnOff | cmdUp | cmdDown | cmdMute | cmdLeft | cmdRight | cmdAv =>
    cases h; exact .quiet ⟨rfl, rfl, rfl⟩ ⟨rfl, rfl, rfl⟩

/-- No operation writes a slot but the one at `head` (R44). -/
theorem BufferMove.mem_cases {as : List Agent} {s t : State} (h : BufferMove as s t) :
    t.mem = s.mem ∨ ∃ v, t.mem = Memory.setSlot s.mem s.head v := by
  cases h with
  | producer h => exact h.mem_cases
  | edgePop _ h => exact h.mem_cases
  | host h | look _ h | pop _ _ h | quiet _ h => exact .inl h.mem_eq

/-- An operation that carries an edge performs EDGE, where at most a POP has gone before (R113, R120). -/
theorem exec_of_edgeOf {i : Instr} {ts : Timestamp} {s t : State} (hi : edgeOf i = some ts)
    (h : exec i s = .next t) : ∃ u, SameButTail s u ∧ t = edgeDecoder ts u := by
  cases i with
  | edge => cases hi; cases h; exact ⟨showPorts (some ts) s, ⟨⟨rfl, rfl, rfl⟩, rfl, rfl⟩, rfl⟩
  | edgePop =>
    cases hi
    obtain ⟨-, rfl⟩ := exec_edgePop_eq_next h
    exact ⟨popBuffer (showPorts (some ts) s), ⟨⟨rfl, rfl, rfl⟩, rfl, rfl⟩, rfl⟩
  | notify falling =>
    cases falling with
    | false => cases hi
    | true => cases hi; cases h; exact ⟨showPorts (some ts) s, ⟨⟨rfl, rfl, rfl⟩, rfl, rfl⟩, rfl⟩
  | reset | idle | avail | pop | symZero | symOne | symStart | emit | push | init | lookup | cmdOnOff | cmdUp
  | cmdDown | cmdMute | cmdLeft | cmdRight | cmdAv => cases hi

/-- An external operation without an edge writes `tail` alone, unless it is RESET. -/
theorem sameButTail_of_no_edge {i : Instr} {s t : State} (hext : isExternal i = true) (hi : edgeOf i = none)
    (hreset : i ≠ .reset) (h : exec i s = .next t) : SameButTail s t := by
  cases i with
  | reset => exact absurd rfl hreset
  | idle | avail => cases h; exact ⟨⟨rfl, rfl, rfl⟩, rfl, rfl⟩
  | pop =>
    obtain ⟨-, rfl⟩ := exec_pop_eq_next h
    exact ⟨⟨rfl, rfl, rfl⟩, rfl, rfl⟩
  | notify falling =>
    cases falling with
    | false => cases h; exact ⟨⟨rfl, rfl, rfl⟩, rfl, rfl⟩
    | true => cases hi
  | edge | edgePop => cases hi
  | symZero | symOne | symStart | emit | push | init | lookup | cmdOnOff | cmdUp | cmdDown | cmdMute | cmdLeft
  | cmdRight | cmdAv => cases hext

/-- No operation but RESET and those that carry an edge writes `last`. -/
theorem last_of_no_edge {i : Instr} {s t : State} (hi : edgeOf i = none) (hreset : i ≠ .reset)
    (h : exec i s = .next t) : t.last = s.last := by
  cases i with
  | symZero | symOne | symStart | push | init | lookup | cmdOnOff | cmdUp | cmdDown | cmdMute | cmdLeft | cmdRight
  | cmdAv => cases h; rfl
  | emit => cases h; exact emitIfComplete_last s
  | reset | idle | avail | pop | edge | edgePop | notify =>
    obtain ⟨⟨hlast, -, -⟩, -, -⟩ := sameButTail_of_no_edge rfl hi hreset h
    exact hlast

/-! ### Ownership and safety (R125, R135) -/

/-- Settles O31: each agent's move bounds what its operations write. -/
theorem ownershipOfState : Obligations.OwnershipOfState := by
  intro i s t h
  have hmove := bufferMove_of_exec h
  refine ⟨fun hi => ?_, fun hi => ?_, fun hi => ?_, fun hi => ?_, fun hi => ?_⟩ <;> rw [hi] at hmove
  · cases hmove with
    | look hd h => exact ⟨hd, h.head_eq, h.sameBytes⟩
    | pop _ hd h => exact ⟨hd, h.head_eq, h.sameBytes⟩
  · cases hmove with
    | producer hstore =>
      refine ⟨hstore.storesAtHead, fun htail => ?_⟩
      rcases hstore with hkeep | ⟨v, hhead, htail', -⟩
      · exact absurd hkeep.tail_eq htail
      · rw [htail'] at htail ⊢
        rw [hhead]
        exact pushBuffer_evicts htail
  · cases hmove with
    | edgePop ha hstore =>
      refine ⟨hstore.storesAtHead, ?_⟩
      rcases hstore with hkeep | ⟨v, -, htail, -⟩
      · exact hkeep.tail_eq
      · exact htail.trans (pushBuffer_tail_of_not_full v (count_popBuffer_ne_full ha))
  · cases hmove with
    | host hinit => exact hinit.sameBytes
  · cases hmove with
    | quiet hd hkeep => exact ⟨hd, hkeep.sameIndices, hkeep.sameBytes⟩

/-- Settles O32: what carries an edge performs EDGE with that timestamp, and the rest leaves the decoder alone. -/
theorem onlyEdgesAndResetWriteDecoder : Obligations.OnlyEdgesAndResetWriteDecoder := by
  intro i s t h hreset
  refine ⟨fun hlast => ?_, fun hext hi => ?_⟩
  · cases hi : edgeOf i with
    | none => exact absurd (last_of_no_edge hi hreset h) hlast
    | some ts =>
      obtain ⟨u, -, rfl⟩ := exec_of_edgeOf hi h
      rw [edgeDecoder_last]
  · obtain ⟨⟨-, hcnt, hacc⟩, -, -⟩ := sameButTail_of_no_edge hext hi hreset h
    exact ⟨hcnt, hacc⟩

/-- The slot the next PUSH writes is not a live one (R42). -/
theorem ne_head_of_liveSlot {s : State} {j : Index} (h : liveSlot s j) : j ≠ s.head := by
  rintro rfl
  exact Nat.lt_irrefl _ h

/-- Settles O33: the one slot an operation can write is the one at `head`, which is not live. -/
theorem liveSlotsAreNeverOverwritten : Obligations.LiveSlotsAreNeverOverwritten := by
  intro i s t j h hlive _
  rcases (bufferMove_of_exec h).mem_cases with hmem | ⟨v, hmem⟩
  · exact memRead_congr hmem j
  · rw [memRead, memRead, hmem, Memory.slot_setSlot_other _ _ (ne_head_of_liveSlot hlive)]

/-- Settles O34: writing one slot whole keeps the form. -/
theorem operationsKeepMemoryForm : Obligations.OperationsKeepMemoryForm := by
  intro i s t hwf hwhole h
  rcases (bufferMove_of_exec h).mem_cases with hmem | ⟨v, hmem⟩ <;> rw [hmem]
  · exact ⟨hwf, hwhole⟩
  · exact ⟨Memory.wf_setSlot _ v hwf, wholeSlots_setSlot _ v hwhole⟩

/-- Settles O14: both pops test `available` before anything else. -/
theorem popOnEmptyFaults : Obligations.PopOnEmptyFaults := fun _ h =>
  ⟨exec_pop_of_empty (available_eq_false_of_empty h),
    fun ts => exec_edgePop_of_empty ts (available_eq_false_of_empty h)⟩

theorem exec_answers_of_not_asksPop {i : Instr} (s : State) (hi : asksPop i = false) : ∃ t, exec i s = .next t := by
  cases i with
  | pop | edgePop => cases hi
  | reset | idle | avail | edge | symZero | symOne | symStart | emit | push | init | notify | lookup | cmdOnOff
  | cmdUp | cmdDown | cmdMute | cmdLeft | cmdRight | cmdAv => exact ⟨_, rfl⟩

theorem exec_answers_of_available {i : Instr} {s : State} (hi : asksPop i = true) (ha : available s = true) :
    ∃ t, exec i s = .next t := by
  cases i with
  | pop => exact ⟨_, exec_pop_of_available ha⟩
  | edgePop ts => exact ⟨_, exec_edgePop_of_available ts ha⟩
  | reset | idle | avail | edge | symZero | symOne | symStart | emit | push | init | notify | lookup | cmdOnOff
  | cmdUp | cmdDown | cmdMute | cmdLeft | cmdRight | cmdAv => cases hi

theorem exec_faults_of_empty {i : Instr} {s : State} (hi : asksPop i = true) (h : s.head = s.tail) :
    exec i s = .fault .popOnEmpty := by
  obtain ⟨hpop, hedgePop⟩ := popOnEmptyFaults s h
  cases i with
  | pop => exact hpop
  | edgePop ts => exact hedgePop ts
  | reset | idle | avail | edge | symZero | symOne | symStart | emit | push | init | notify | lookup | cmdOnOff
  | cmdUp | cmdDown | cmdMute | cmdLeft | cmdRight | cmdAv => cases hi

/-- Settles O29: a pop looks at the flag, and nothing else looks at anything. -/
theorem faultsOnlyOnEmptyPop : Obligations.FaultsOnlyOnEmptyPop := by
  intro i s
  cases hi : asksPop i with
  | false => exact .inr ⟨.inl rfl, exec_answers_of_not_asksPop s hi⟩
  | true =>
    by_cases h : s.head = s.tail
    · exact .inl ⟨rfl, h, exec_faults_of_empty hi h⟩
    · exact .inr ⟨.inr h, exec_answers_of_available hi ((available_iff s).2 h)⟩

/-- A word that asks for an external operation is one. -/
theorem decode_of_asksExternal {w : OpWord} (h : asksExternal w = true) :
    ∃ i, decode w = .ok i ∧ isExternal i = true := by
  unfold asksExternal at h
  split at h
  · next i hi => exact ⟨i, hi, h⟩
  · cases h

/-- Settles O30: a legal word is an operation, and that answers unless it pops an empty buffer. -/
theorem legalStepAnswers : Obligations.LegalStepAnswers := by
  intro s hs
  cases hin : s.inputs with
  | nil => exact .inl ⟨_, step_of_no_inputs hin⟩
  | cons w rest =>
    obtain ⟨i, hw, -⟩ := decode_of_asksExternal (hs.external w (hin ▸ List.mem_cons_self))
    rw [step_of_decode_ok hin hw]
    rcases faultsOnlyOnEmptyPop i { s with inputs := rest } with ⟨hpop, hempty, hfault⟩ | ⟨-, hnext⟩
    · exact .inr ⟨hfault, hempty, w, rest, i, rfl, hw, hpop⟩
    · exact .inl hnext

end Sys2Proof.Machine

/-! # The buffer as a queue, and the state at rest -/

namespace Sys2Proof.Machine

/-! ### The unread commands (R43) -/

theorem SameBuffer.unread_eq {s t : State} (h : SameBuffer s t) : unread t = unread s := by
  simp only [unread, h.count_eq, h.tail_eq, memRead_congr h.mem_eq]

@[simp] theorem length_unread (s : State) : (unread s).length = count s := by
  simp [unread]

/-- One past the last unread slot stands `head`. -/
theorem tail_add_count (s : State) : s.tail + BitVec.ofNat 7 (count s) = s.head := by
  rw [count, BitVec.ofNat_toNat, BitVec.setWidth_eq, add_sub_cancel]

/-- The unread slots are not the one the next PUSH writes. -/
theorem tail_add_ne_head {s : State} {k : Nat} (h : k < count s) : s.tail + BitVec.ofNat 7 k ≠ s.head := by
  intro heq
  have hk : k < 128 := h.trans (count_lt s)
  have hcount : count s = k := by
    rw [count, ← heq, add_sub_cancel_left, BitVec.toNat_ofNat, Nat.mod_eq_of_lt hk]
  omega

/-- The slots after the oldest are those counted from an advanced `tail`. -/
theorem add_succ_eq_advance_add (i : Index) (k : Nat) :
    i + BitVec.ofNat 7 (k + 1) = advance i + BitVec.ofNat 7 k := by
  rw [advance, BitVec.ofNat_add, add_assoc, add_comm (BitVec.ofNat 7 k)]

/-- A legal POP takes the slot at `tail` (R75). -/
theorem unread_eq_cons_of_available {s : State} (h : available s = true) :
    unread s = memRead s.tail s :: unread (popBuffer s) := by
  rw [unread, ← count_popBuffer h, List.range_succ_eq_map, List.map_cons, List.map_map, unread, popBuffer_tail]
  congr 1
  · rw [BitVec.add_zero]
  · refine List.map_congr_left fun k _ => ?_
    exact congrArg (memRead · s) (add_succ_eq_advance_add s.tail k)

/-- A PUSH where there is room adds one command (R73). -/
theorem unread_pushBuffer_of_not_full (v : Cmd) {s : State} (h : count s ≠ 127) :
    unread (pushBuffer v s) = unread s ++ [v] := by
  have hcount : count (pushBuffer v s) = count s + 1 := by
    have := count_lt s
    rw [count_pushBuffer]
    omega
  rw [unread, hcount, List.range_succ, List.map_append, pushBuffer_tail_of_not_full v h, unread]
  congr 1
  · refine List.map_congr_left fun k hk => ?_
    exact memRead_pushBuffer_other v s (tail_add_ne_head (List.mem_range.1 hk))
  · rw [List.map_singleton, tail_add_count, memRead_pushBuffer_head]

/-- On a full buffer a PUSH is a POP and then the PUSH (R74). -/
theorem sameBuffer_push_pop_of_full (v : Cmd) {s : State} (h : count s = 127) :
    SameBuffer (pushBuffer v (popBuffer s)) (pushBuffer v s) := by
  have ha : available s = true := (available_iff_count s).2 (by omega)
  refine ⟨rfl, ?_, rfl⟩
  rw [pushBuffer_tail_of_full v h, pushBuffer_tail_of_not_full v (count_popBuffer_ne_full ha), popBuffer_tail]

/-- A PUSH is drop-oldest on the unread commands (R9, R80). -/
theorem unread_pushBuffer (v : Cmd) (s : State) : unread (pushBuffer v s) = Receiver.enqueue v (unread s) := by
  by_cases hfull : count s = 127
  · have ha : available s = true := (available_iff_count s).2 (by omega)
    rw [(sameBuffer_push_pop_of_full v hfull).unread_eq,
      unread_pushBuffer_of_not_full v (count_popBuffer_ne_full ha), Receiver.enqueue, length_unread, hfull,
      if_neg (by decide), unread_eq_cons_of_available ha, List.tail_cons]
  · have hroom : count s < Config.usable := by
      have := count_lt s
      unfold Config.usable
      omega
    rw [unread_pushBuffer_of_not_full v hfull, Receiver.enqueue, length_unread, if_pos hroom]

/-- Settles O41: where there is room the command is appended, and a full buffer is popped first. -/
theorem pushIsDropOldestEnqueue : Obligations.PushIsDropOldestEnqueue := fun s v =>
  ⟨_, exec_push v s, unread_pushBuffer v s⟩

/-- Settles O42: the unread slots are counted from `tail`. -/
theorem popTakesOldestUnread : Obligations.PopTakesOldestUnread := fun s h =>
  ⟨_, _, exec_pop_of_available ((available_iff s).2 h), rfl, unread_eq_cons_of_available ((available_iff s).2 h)⟩

theorem count_initBuffer (s : State) : count (initBuffer s) = 0 := by
  rw [count, initBuffer_head, initBuffer_tail, BitVec.sub_self, BitVec.toNat_zero]

/-- Settles O39: the count of each move. -/
theorem countLaw : Obligations.CountLaw := by
  intro s v
  refine ⟨⟨_, exec_init s, count_initBuffer s⟩, ⟨_, exec_push v s, count_pushBuffer v s⟩, fun h => ?_,
    ⟨_, exec_avail s, rfl, ?_⟩⟩
  · have ha : available s = true := (available_iff s).2 h
    exact ⟨_, exec_pop_of_available ha, count_popBuffer ha⟩
  · rw [returning_result, ← Bool.decide_coe (available s)]
    exact congrArg Result.available (decide_eq_decide.2 (available_iff_count s))

/-! ### Lists of pushes and pops (R80) -/

/-- With no unread command the indices meet (R19, R28). -/
theorem head_eq_tail_of_unread_nil {s : State} (h : unread s = []) : s.head = s.tail := by
  have hcount : count s = 0 := by rw [← length_unread, h, List.length_nil]
  by_contra hne
  exact (available_iff_count s).1 ((available_iff s).2 hne) hcount

theorem head_ne_tail_of_unread_cons {s : State} {v : Cmd} {vs : List Cmd} (h : unread s = v :: vs) :
    s.head ≠ s.tail := by
  intro hempty
  rw [unread_eq_nil_of_empty hempty] at h
  cases h

/-- As many POPs as commands are unread return them all, oldest first. -/
theorem popMany_unread {vs : List Cmd} {s : State} (h : unread s = vs) :
    ∃ u, popMany vs.length s = some (vs, u) ∧ u.head = u.tail := by
  induction vs generalizing s with
  | nil => exact ⟨s, rfl, head_eq_tail_of_unread_nil h⟩
  | cons v rest ih =>
    obtain ⟨t, w, hexec, hresult, hunread⟩ := popTakesOldestUnread s (head_ne_tail_of_unread_cons h)
    obtain ⟨rfl, hrest⟩ := List.cons.inj (hunread.symm.trans h)
    obtain ⟨u, hu, hempty⟩ := ih hrest
    refine ⟨u, ?_, hempty⟩
    simp only [List.length_cons, popMany, hexec, hresult, hu]

/-- PUSHes in a row enqueue their values in turn. -/
theorem execAll_pushes (vs : List Cmd) (s : State) : ∃ t, execAll (vs.map Instr.push) s = .next t ∧
    unread t = vs.foldl (fun q v => Receiver.enqueue v q) (unread s) := by
  induction vs generalizing s with
  | nil => exact ⟨s, rfl, rfl⟩
  | cons v rest ih =>
    obtain ⟨t, hexec, hunread⟩ := ih (pushBuffer v s)
    exact ⟨t, hexec, by rw [hunread, unread_pushBuffer, List.foldl_cons]⟩

/-- Drop-oldest keeps the last 127 (R80). -/
theorem enqueue_eq_drop (v : Cmd) {q : List Cmd} (h : q.length ≤ 127) :
    Receiver.enqueue v q = (q ++ [v]).drop (q.length + 1 - 127) := by
  unfold Receiver.enqueue Config.usable
  split
  · next hroom => rw [Nat.sub_eq_zero_of_le (by omega), List.drop_zero]
  · next hfull =>
    have hone : q.length + 1 - 127 = 1 := by omega
    rw [hone, List.drop_append_of_le_length (by omega), List.drop_one]

/-- Drop-oldest, one command after another, keeps the last 127 of them all. -/
theorem foldl_enqueue (vs : List Cmd) {q : List Cmd} (h : q.length ≤ 127) :
    vs.foldl (fun q v => Receiver.enqueue v q) q = (q ++ vs).drop (q.length + vs.length - 127) := by
  induction vs generalizing q with
  | nil =>
    rw [List.foldl_nil, List.append_nil, List.length_nil, Nat.add_zero, Nat.sub_eq_zero_of_le h, List.drop_zero]
  | cons v rest ih =>
    have hsnoc : (q ++ [v]).length = q.length + 1 := List.length_append
    have hlength : (Receiver.enqueue v q).length = q.length + 1 - (q.length + 1 - 127) := by
      rw [enqueue_eq_drop v h, List.length_drop, hsnoc]
    have happend : Receiver.enqueue v q ++ rest = (q ++ v :: rest).drop (q.length + 1 - 127) := by
      rw [enqueue_eq_drop v h, ← List.drop_append_of_le_length (by omega), List.append_assoc, List.singleton_append]
    have hdrops : q.length + 1 - 127 + (q.length + 1 - (q.length + 1 - 127) + rest.length - 127) =
        q.length + (rest.length + 1) - 127 := by omega
    rw [List.foldl_cons, ih (by omega), hlength, happend, List.drop_drop, hdrops, List.length_cons]

/-- PUSHes into an empty buffer leave the last 127 of their values unread. -/
theorem execAll_pushes_of_empty (vs : List Cmd) {s : State} (h : s.head = s.tail) :
    ∃ t, execAll (vs.map Instr.push) s = .next t ∧ unread t = vs.drop (vs.length - 127) := by
  obtain ⟨t, hexec, hunread⟩ := execAll_pushes vs s
  refine ⟨t, hexec, ?_⟩
  rw [hunread, unread_eq_nil_of_empty h, foldl_enqueue vs (Nat.zero_le _), List.nil_append, List.length_nil,
    Nat.zero_add]

/-- Settles O44: no PUSH drops anything. -/
theorem fifoOrder : Obligations.FifoOrder := by
  intro s vs hempty hlength
  obtain ⟨t, hexec, hunread⟩ := execAll_pushes_of_empty vs hempty
  rw [Nat.sub_eq_zero_of_le hlength, List.drop_zero] at hunread
  obtain ⟨u, hpops, hdrained⟩ := popMany_unread hunread
  exact ⟨t, u, hexec, hpops, hdrained⟩

/-- Settles O45: all but the last 127 were dropped. -/
theorem overwriteKeepsNewest : Obligations.OverwriteKeepsNewest := by
  intro s vs hempty hlength
  obtain ⟨t, hexec, hunread⟩ := execAll_pushes_of_empty vs hempty
  obtain ⟨u, hpops, hdrained⟩ := popMany_unread hunread
  have hkept : (vs.drop (vs.length - 127)).length = 127 := by rw [List.length_drop]; omega
  rw [hkept] at hpops
  exact ⟨t, u, hexec, hpops, hdrained⟩

/-- A list of operations that answers is its first one and then the others. -/
theorem execAll_cons_eq_next {i : Instr} {is : List Instr} {s t : State} (h : execAll (i :: is) s = .next t) :
    ∃ u, exec i s = .next u ∧ execAll is u = .next t := by
  rw [execAll] at h
  split at h
  · next u hu => exact ⟨u, hu, h⟩
  · cases h
  · cases h

theorem execAll_cons {i : Instr} {is : List Instr} {s u : State} (h : exec i s = .next u) :
    execAll (i :: is) s = execAll is u := by
  rw [execAll, h]

/-- `head` counts the PUSHes (R35). -/
theorem head_after_pushes {is : List Instr} {s t : State}
    (his : ∀ i ∈ is, i = .pop ∨ i = .avail ∨ i = .idle ∨ ∃ c, i = .push c) (h : execAll is s = .next t) :
    t.head = s.head + BitVec.ofNat 7 (pushCount is) := by
  induction is generalizing s with
  | nil => cases h; exact (BitVec.add_zero _).symm
  | cons i rest ih =>
    obtain ⟨u, hu, hrun⟩ := execAll_cons_eq_next h
    rw [ih (fun j hj => his j (List.mem_cons_of_mem i hj)) hrun]
    rcases his i List.mem_cons_self with rfl | rfl | rfl | ⟨c, rfl⟩
    · obtain ⟨-, rfl⟩ := exec_pop_eq_next hu
      rfl
    · cases hu; rfl
    · cases hu; rfl
    · cases hu
      exact (add_succ_eq_advance_add s.head (pushCount rest)).symm

/-- Settles O46: the slot a PUSH writes is the one at `head`, and `head` counts the PUSHes. -/
theorem pushesWalkTheSlots : Obligations.PushesWalkTheSlots := by
  intro is s t v his h
  refine ⟨_, exec_push v t, ?_⟩
  rw [← head_after_pushes his h]
  exact Memory.slot_setSlot_same t.mem t.head v

/-- Settles O47: an edge stores at most one command, which never empties the buffer. -/
theorem edgesNeverEmptyTheBuffer : Obligations.EdgesNeverEmptyTheBuffer := by
  intro s tss h
  rw [← available_iff] at h
  induction tss generalizing s with
  | nil => exact ⟨s, _, rfl, h, exec_pop_of_available h⟩
  | cons ts rest ih => exact ih _ ((edgeDecoder_storesAtMostOne ts _).available h)

/-! ### The state at rest (R26) -/

/-- Every live slot has been written by a PUSH. -/
def LiveWritten (s : State) : Prop := ∀ i, liveSlot s i → (Memory.slot s.mem i).isSome = true

theorem SameBuffer.liveWritten {s t : State} (h : SameBuffer s t) (hs : LiveWritten s) : LiveWritten t := by
  intro i hi
  rw [h.mem_eq]
  rw [liveSlot, h.tail_eq, h.count_eq] at hi
  exact hs i hi

theorem liveWritten_of_empty {s : State} (h : s.head = s.tail) : LiveWritten s := by
  intro i hi
  rw [liveSlot, count, h, BitVec.sub_self] at hi
  exact absurd hi (Nat.not_lt_zero _)

/-- A live slot in numbers (R43). -/
theorem liveSlot_iff (s : State) (i : Index) :
    liveSlot s i ↔ (i.toNat + 128 - s.tail.toNat) % 128 < (s.head.toNat + 128 - s.tail.toNat) % 128 := by
  have := s.tail.isLt
  have hwrap : 2 ^ 7 - s.tail.toNat + i.toNat = i.toNat + 128 - s.tail.toNat := by omega
  rw [liveSlot, ← count_eq, BitVec.toNat_sub, hwrap]

/-- The slots live after a PUSH were live before it, but for the one it wrote. -/
theorem liveSlot_of_pushBuffer {v : Cmd} {s : State} {i : Index} (hi : i ≠ s.head)
    (h : liveSlot (pushBuffer v s) i) : liveSlot s i := by
  have := s.head.isLt
  have := s.tail.isLt
  have := i.isLt
  have hne : i.toNat ≠ s.head.toNat := fun heq => hi (BitVec.eq_of_toNat_eq heq)
  rw [liveSlot_iff, pushBuffer_tail_toNat, pushBuffer_head, advance_toNat] at h
  rw [liveSlot_iff]
  split at h <;> omega

theorem liveWritten_pushBuffer (v : Cmd) {s : State} (hs : LiveWritten s) : LiveWritten (pushBuffer v s) := by
  intro i hi
  by_cases heq : i = s.head
  · rw [heq, pushBuffer_mem, Memory.slot_setSlot_same, Option.isSome_some]
  · rw [pushBuffer_mem, Memory.slot_setSlot_other _ _ heq]
    exact hs i (liveSlot_of_pushBuffer heq hi)

theorem liveWritten_popBuffer {s : State} (ha : available s = true) (hs : LiveWritten s) :
    LiveWritten (popBuffer s) := by
  intro i hi
  have := s.head.isLt
  have := s.tail.isLt
  have := i.isLt
  refine hs i ?_
  rw [available_iff, head_ne_tail_iff] at ha
  rw [liveSlot_iff, popBuffer_head, popBuffer_tail, advance_toNat] at hi
  rw [liveSlot_iff]
  omega

theorem StoresAtMostOne.liveWritten {s t : State} (h : StoresAtMostOne s t) (hs : LiveWritten s) :
    LiveWritten t := by
  rcases h with hkeep | ⟨v, hpush⟩
  · exact hkeep.liveWritten hs
  · exact hpush.liveWritten (liveWritten_pushBuffer v hs)

/-- Every operation keeps the live slots written. -/
theorem BufferMove.liveWritten {as : List Agent} {s t : State} (h : BufferMove as s t) (hs : LiveWritten s) :
    LiveWritten t := by
  cases h with
  | host h => exact h.liveWritten (liveWritten_of_empty rfl)
  | producer h => exact h.liveWritten hs
  | look _ h | quiet _ h => exact h.liveWritten hs
  | pop ha _ h => exact h.liveWritten (liveWritten_popBuffer ha hs)
  | edgePop ha h => exact h.liveWritten (liveWritten_popBuffer ha hs)

/-- Settles O43: the slot at `tail` is live. -/
theorem restingPopReturnsWrittenSlot : Obligations.RestingPopReturnsWrittenSlot := by
  intro s t hrest h
  obtain ⟨ha, rfl⟩ := exec_pop_eq_next h
  have hlive : liveSlot s s.tail := by
    rw [liveSlot, BitVec.sub_self]
    exact Nat.pos_of_ne_zero ((available_iff_count s).1 ha)
  obtain ⟨v, hv⟩ := Option.isSome_iff_exists.1 (hrest.liveWritten _ hlive)
  refine ⟨v, hv, ?_⟩
  rw [popBuffer_result, memRead, showPorts_mem, showPorts_tail, hv, Option.getD_some]

/-- Settles O10: nothing is written, unread or waiting. -/
theorem resetStateIsLegal : Obligations.ResetStateIsLegal where
  rest :=
    { cntSmall := by decide
      memWf := by decide
      memWhole := fun _ => rfl
      liveWritten := liveWritten_of_empty rfl }
  external := by decide

/-- Settles O9: the literal of `State.reset`. -/
theorem resetStateValues : Obligations.ResetStateValues :=
  ⟨rfl, rfl, rfl, rfl, rfl, rfl, rfl, fun _ => rfl⟩

end Sys2Proof.Machine

/-! # EDGE in every state, and the clocks of the facade -/

namespace Sys2Proof.Machine

/-! ### What the sixteenth bit stores (R96, R97) -/

/-- The bit that a bit-carrying symbol carries (R52). -/
def bitOf (e : Timestamp) : Bool := decide (1500 ≤ e.toNat)

theorem shiftedIn_toNat (e : Timestamp) (v : Cmd) :
    (shiftedIn e v).toNat = (2 * v.toNat + if 1500 ≤ e.toNat then 1 else 0) % 2 ^ 16 := by
  unfold shiftedIn
  split
  · next h => rw [shl1_toNat, if_neg (by omega), Nat.add_zero]
  · next h => rw [shl1Or1_toNat, if_pos (by omega)]

@[simp] theorem shiftedIn_getLsbD_zero (e : Timestamp) (v : Cmd) : (shiftedIn e v).getLsbD 0 = bitOf e := by
  unfold shiftedIn bitOf
  split
  · next h => rw [shl1_getLsbD_zero, decide_eq_false (by omega)]
  · next h => rw [shl1Or1_getLsbD_zero, decide_eq_true (by omega)]

theorem shiftedIn_getLsbD_succ (e : Timestamp) (v : Cmd) {k : Nat} (h : k < 15) :
    (shiftedIn e v).getLsbD (k + 1) = v.getLsbD k := by
  unfold shiftedIn
  split
  · exact shl1_getLsbD_succ v h
  · exact shl1Or1_getLsbD_succ v h

/-- The counter stands at 15 exactly where its number is 15 (R14). -/
theorem cnt_eq_fifteen_iff (c : Count) : c = 15#5 ↔ c.toNat = 15 := (BitVec.toNat_inj (y := 15#5)).symm

/-- Where the counter is 15, a bit makes a command: the buffer is as a PUSH of the shifted accumulator leaves it. -/
theorem edgeDecoder_pushes {ts : Timestamp} {s : State} (h : (elapsed ts s).toNat < 2500) (hc : s.cnt.toNat = 15) :
    SameBuffer (pushBuffer (shiftedIn (elapsed ts s) s.acc) s) (edgeDecoder ts s) ∧
    (edgeDecoder ts s).acc = shiftedIn (elapsed ts s) s.acc ∧ (edgeDecoder ts s).cnt.toNat = 0 := by
  rw [edgeDecoder_sixteenth h ((cnt_eq_fifteen_iff _).2 hc)]
  exact ⟨⟨rfl, rfl, rfl⟩, rfl, rfl⟩

/-- Any other bit is counted and shifted in. -/
theorem edgeDecoder_counts {ts : Timestamp} {s : State} (h : (elapsed ts s).toNat < 2500) (hc : s.cnt.toNat ≠ 15) :
    SameBuffer s (edgeDecoder ts s) ∧ (edgeDecoder ts s).acc = shiftedIn (elapsed ts s) s.acc ∧
    (s.cnt.toNat < 15 → (edgeDecoder ts s).cnt.toNat = s.cnt.toNat + 1) := by
  rw [edgeDecoder_earlier h (mt (cnt_eq_fifteen_iff _).1 hc)]
  exact ⟨⟨rfl, rfl, rfl⟩, rfl, fun hlt => cnt_succ_toNat hlt.le⟩

/-- A long interval restarts the frame. -/
theorem edgeDecoder_restarts {ts : Timestamp} {s : State} (h : 2500 ≤ (elapsed ts s).toNat) :
    SameBuffer s (edgeDecoder ts s) ∧ (edgeDecoder ts s).acc = s.acc ∧ (edgeDecoder ts s).cnt.toNat = 0 := by
  rw [edgeDecoder_frameStart h]
  exact ⟨⟨rfl, rfl, rfl⟩, rfl, rfl⟩

/-- `cnt` stays at most 15, and is counted modulo 16 (R97). -/
theorem edgeDecoder_cnt (ts : Timestamp) {s : State} (h : s.cnt.toNat ≤ 15) :
    (edgeDecoder ts s).cnt.toNat = if 2500 ≤ (elapsed ts s).toNat then 0 else (s.cnt.toNat + 1) % 16 := by
  split
  · next hlong =>
    obtain ⟨-, -, hcnt⟩ := edgeDecoder_restarts hlong
    exact hcnt
  · next hshort =>
    rw [Nat.not_le] at hshort
    by_cases hc : s.cnt.toNat = 15
    · obtain ⟨-, -, hcnt⟩ := edgeDecoder_pushes hshort hc
      rw [hcnt, hc]
    · obtain ⟨-, -, hcnt⟩ := edgeDecoder_counts hshort hc
      rw [hcnt (by omega)]
      omega

theorem edgeDecoder_cnt_le (ts : Timestamp) {s : State} (h : s.cnt.toNat ≤ 15) :
    (edgeDecoder ts s).cnt.toNat ≤ 15 := by
  rw [edgeDecoder_cnt ts h]
  split <;> omega

/-- An edge moves `head` exactly where it completes a command (R97). -/
theorem edgeDecoder_head_ne_iff (ts : Timestamp) (s : State) :
    (edgeDecoder ts s).head ≠ s.head ↔ s.cnt.toNat = 15 ∧ (elapsed ts s).toNat < 2500 := by
  constructor
  · intro hmoved
    by_contra hquiet
    refine hmoved ?_
    by_cases hlong : 2500 ≤ (elapsed ts s).toNat
    · obtain ⟨hbuf, -, -⟩ := edgeDecoder_restarts hlong
      exact hbuf.head_eq
    · obtain ⟨hbuf, -, -⟩ := edgeDecoder_counts (Nat.not_le.1 hlong) (by omega)
      exact hbuf.head_eq
  · rintro ⟨hc, hshort⟩
    obtain ⟨hbuf, -, -⟩ := edgeDecoder_pushes hshort hc
    rw [hbuf.head_eq]
    exact advance_ne s.head

/-- Settles O36: an edge `d` ticks after the last one has the interval `d`. -/
theorem cntTransitionTable : Obligations.CntTransitionTable := by
  intro s t d hcnt h
  cases h
  have helapsed : elapsed (s.last + d) (showPorts (some (s.last + d)) s) = d := elapsed_last_add s d
  have htable := edgeDecoder_cnt (s.last + d) (s := showPorts (some (s.last + d)) s) hcnt
  have hmoves := edgeDecoder_head_ne_iff (s.last + d) (showPorts (some (s.last + d)) s)
  rw [helapsed] at htable hmoves
  exact ⟨htable, hmoves⟩

/-- The buffer after one command was stored (R73). -/
theorem result_of_push {v : Cmd} {s t : State} (h : SameBuffer (pushBuffer v s) t) :
    Memory.slot t.mem s.head = some v ∧ available t = true ∧ t.head.toNat = (s.head.toNat + 1) % 128 ∧
    t.tail.toNat = (if (s.head.toNat + 1) % 128 = s.tail.toNat then (s.tail.toNat + 1) % 128 else s.tail.toNat) ∧
    SameBytesBut s.head s t := by
  refine ⟨?_, h.available_eq.trans (available_pushBuffer v s), ?_, ?_, sameBytesBut_of_mem_eq_setSlot h.mem_eq⟩
  · rw [h.mem_eq, pushBuffer_mem, Memory.slot_setSlot_same]
  · rw [h.head_eq, pushBuffer_head, advance_toNat]
  · rw [h.tail_eq, pushBuffer_tail_toNat]

/-- Settles O21: the interval restarts the frame, completes a command, or adds a bit. -/
theorem edgeResult : Obligations.EdgeResult := by
  intro s ts
  refine ⟨_, exec_edge ts s, edgeDecoder_last ts _, edgeDecoder_result ts _,
    showsClock_edgeDecoder ts (showsClock_showPorts (some ts) s), ?_⟩
  rw [edgeDecoder_showPorts, ← elapsed_toNat]
  split
  · next hlong =>
    obtain ⟨hbuf, hacc, hcnt⟩ := edgeDecoder_restarts hlong
    exact ⟨hcnt, hacc, hbuf.sameIndices, hbuf.sameBytes⟩
  · next hshort =>
    rw [Nat.not_le] at hshort
    by_cases hc : s.cnt.toNat = 15
    · obtain ⟨hbuf, hacc, hcnt⟩ := edgeDecoder_pushes hshort hc
      obtain ⟨hslot, havail, hhead, htail, hbytes⟩ := result_of_push hbuf
      refine ⟨(congrArg BitVec.toNat hacc).trans (shiftedIn_toNat _ _), ?_⟩
      rw [if_pos hc]
      exact ⟨hcnt, hslot.trans (congrArg some hacc.symm), havail, hhead, htail, hbytes⟩
    · obtain ⟨hbuf, hacc, hcnt⟩ := edgeDecoder_counts hshort hc
      refine ⟨(congrArg BitVec.toNat hacc).trans (shiftedIn_toNat _ _), ?_⟩
      rw [if_neg hc]
      exact ⟨hcnt, hbuf.sameIndices, hbuf.sameBytes⟩

/-! ### The operations that EDGE and the facade are made of -/

/-- Settles O12: the buffer is as the one PUSH leaves it. -/
theorem pushResult : Obligations.PushResult := by
  intro s v
  obtain ⟨hslot, havail, hhead, htail, hbytes⟩ := result_of_push (.refl (pushBuffer v s))
  exact ⟨_, exec_push v s, hslot, hhead, htail, havail, ⟨rfl, rfl, rfl⟩, hbytes, rfl, rfl, rfl, rfl⟩

/-- Settles O13: `available` falls exactly where the count falls to 0. -/
theorem popResult : Obligations.PopResult := by
  intro s h
  have ha : available s = true := (available_iff s).2 h
  have hcount := count_popBuffer ha
  refine ⟨_, exec_pop_of_available ha, rfl, fun v hv => ?_, if_pos ha, advance_toNat s.tail, rfl, ?_,
    ⟨rfl, rfl, rfl⟩, fun _ => rfl, rfl, rfl, rfl⟩
  · rw [memRead, hv, Option.getD_some]
  · refine (available_iff_count (popBuffer s)).trans ?_
    omega

/-- Settles O18: a second long interval finds `cnt` at 0. -/
theorem symStartResult : Obligations.SymStartResult := by
  intro s e h
  have hdecode : decode ⟨.symbol, e.setWidth 40⟩ = .ok (.symStart e) := by
    rw [decode_symbol, decodeSymbol_of_ge h]
  have hrestart (u : State) : exec (.edge (u.last + e)) u =
      .next { showPorts (some (u.last + e)) u with last := u.last + e, cnt := 0#5 } := by
    rw [exec_edge, edgeDecoder_frameStart]
    rwa [elapsed_showPorts, elapsed_last_add]
  exact ⟨⟨_, hdecode, exec_symStart e s, rfl, rfl, symbolArm_frame .frameStart s⟩,
    _, _, hrestart s, hrestart _, rfl, rfl, ⟨rfl, rfl⟩, fun _ => rfl, rfl, rfl, ⟨rfl, rfl⟩, fun _ => rfl⟩

/-- Settles O20: step 4 of EDGE pushes `acc` or does nothing. -/
theorem emitResult : Obligations.EmitResult := by
  intro s
  rcases emitIfComplete_cases s with ⟨hc, hemit⟩ | ⟨hc, hemit⟩
  · refine ⟨fun _ => ?_, fun hne => absurd (congrArg BitVec.toNat hc) hne⟩
    have hbuf : SameBuffer (pushBuffer s.acc s) (emitCommand s) := ⟨rfl, rfl, rfl⟩
    obtain ⟨hslot, havail, hhead, htail, hbytes⟩ := result_of_push hbuf
    exact ⟨_, (exec_emit s).trans (congrArg _ hemit), hslot, rfl, rfl, rfl, hhead, htail, havail, hbytes,
      rfl, rfl, rfl, rfl⟩
  · refine ⟨fun heq => absurd (BitVec.eq_of_toNat_eq heq) hc, fun _ => ?_⟩
    rw [exec_emit, hemit]

/-- Settles O23: RESET writes registers alone. -/
theorem resetResult : Obligations.ResetResult := fun s =>
  ⟨_, exec_reset s, rfl, rfl, rfl, rfl, rfl, rfl, unread_eq_nil_of_empty rfl, fun _ => rfl, rfl, rfl, rfl, rfl⟩

theorem SameBlock.refl (s : State) : SameBlock s s := ⟨⟨rfl, rfl, rfl⟩, ⟨rfl, rfl⟩, fun _ => rfl⟩

theorem SameBlock.trans {s t u : State} (h : SameBlock s t) (h' : SameBlock t u) : SameBlock s u := by
  obtain ⟨⟨hlast, hcnt, hacc⟩, ⟨hhead, htail⟩, hbytes⟩ := h
  obtain ⟨⟨hlast', hcnt', hacc'⟩, ⟨hhead', htail'⟩, hbytes'⟩ := h'
  exact ⟨⟨hlast'.trans hlast, hcnt'.trans hcnt, hacc'.trans hacc⟩, ⟨hhead'.trans hhead, htail'.trans htail⟩,
    fun a => (hbytes' a).trans (hbytes a)⟩

/-- Showing the ports changes nothing of the block (R27). -/
theorem sameBlock_showPorts (edge : Option Timestamp) (s : State) : SameBlock s (showPorts edge s) :=
  ⟨⟨rfl, rfl, rfl⟩, ⟨rfl, rfl⟩, fun _ => rfl⟩

theorem execAll_idles (n : Nat) (s : State) :
    ∃ u, execAll (List.replicate n .idle) s = .next u ∧ SameBlock s u := by
  induction n generalizing s with
  | zero => exact ⟨s, rfl, .refl s⟩
  | succ n ih =>
    obtain ⟨u, hrun, hsame⟩ := ih (showPorts none s)
    exact ⟨u, hrun, (sameBlock_showPorts none s).trans hsame⟩

/-- A word without its top three bits is an IDLE (R53). -/
theorem decode_junk (junk : BitVec 32) : decode ⟨.clock, junk.setWidth 40⟩ = .ok .idle := by
  have hlt := setWidth32_lt junk
  have htop : (junk.setWidth 40).toNat / 2 ^ 32 = 0 := Nat.div_eq_of_lt hlt
  rw [topBitsSelectOperation _ (hlt.trans (by decide)), htop]
  rfl

/-- Settles O24: a clock without an edge writes the record alone. -/
theorem idleChangesNothing : Obligations.IdleChangesNothing := by
  refine ⟨decode_junk, fun s => ⟨⟨_, exec_idle s, sameBlock_showPorts none s, rfl, rfl, ?_, fun h => ?_, rfl⟩,
    fun n => execAll_idles n s⟩⟩
  · rw [Bool.eq_iff_iff, decide_eq_true_iff]
    exact available_iff s
  · exact if_pos ((available_iff s).2 h)

/-- Settles O26: NOTIFY is an EDGE clock or an IDLE clock. -/
theorem notifyResult : Obligations.NotifyResult := fun s ts =>
  ⟨⟨_, exec_notify_falling ts s, exec_edge ts s, edgeDecoder_last ts _⟩,
    ⟨_, exec_notify_rising ts s, sameBlock_showPorts none s, rfl, rfl, rfl, rfl⟩⟩

/-! ### EDGE reads nothing of the model's record, and a POP beside it only moves `tail` (R27, R120) -/

/-- The state with another record of what was presented and shown. -/
def withRecord (inputs : List OpWord) (p : Ports) (n : Nat) (s : State) : State :=
  { s with inputs := inputs, ports := p, draws := n }

theorem emitIfComplete_withRecord (inputs : List OpWord) (p : Ports) (n : Nat) (s : State) :
    emitIfComplete (withRecord inputs p n s) = withRecord inputs p n (emitIfComplete s) := by
  by_cases h : s.cnt = Config.frameBits
  · have hemit : emitIfComplete s = emitCommand s := if_pos h
    rw [hemit]
    exact if_pos h
  · have hemit : emitIfComplete s = s := if_neg h
    rw [hemit]
    exact if_neg h

theorem edgeDecoder_withRecord (ts : Timestamp) (inputs : List OpWord) (p : Ports) (n : Nat) (s : State) :
    edgeDecoder ts (withRecord inputs p n s) = withRecord inputs p n (edgeDecoder ts s) := by
  have helapsed : elapsed ts (withRecord inputs p n s) = elapsed ts s := rfl
  rw [edgeDecoder, edgeDecoder, helapsed, ← emitIfComplete_withRecord]
  cases symbolOf (elapsed ts s) <;> rfl

theorem showPorts_eq_withRecord (edge : Option Timestamp) (s : State) :
    showPorts edge s = withRecord s.inputs (portsOf edge s) (s.draws + 1) s := rfl

theorem popBuffer_withRecord (inputs : List OpWord) (p : Ports) (n : Nat) (s : State) :
    popBuffer (withRecord inputs p n s) = withRecord inputs p n (popBuffer s) := rfl

/-- Two records of one state are one block (R27). -/
theorem sameBlock_withRecord (inputs inputs' : List OpWord) (p p' : Ports) (n n' : Nat) (s : State) :
    SameBlock (withRecord inputs p n s) (withRecord inputs' p' n' s) :=
  ⟨⟨rfl, rfl, rfl⟩, ⟨rfl, rfl⟩, fun _ => rfl⟩

/-- Settles O25: the record of the clock is all that tells the two apart. -/
theorem edgePopIsPopThenEdge : Obligations.EdgePopIsPopThenEdge := by
  intro s ts h
  have ha : available s = true := (available_iff s).2 h
  refine ⟨_, _, _, exec_edgePop_of_available ts ha, exec_pop_of_available ha, exec_edge ts _, ?_,
    edgeDecoder_result ts _, ?_, showsClock_edgeDecoder ts (showsClock_showPorts (some ts) s)⟩
  · simp only [showPorts_eq_withRecord, popBuffer_withRecord, edgeDecoder_withRecord]
    exact sameBlock_withRecord _ _ _ _ _ _ (edgeDecoder ts (popBuffer s))
  · rw [edgeDecoder_ports]
    exact if_pos ha

/-- An edge that completes no command commutes with POP. -/
theorem edgeDecoder_popBuffer_of_quiet {ts : Timestamp} {s : State}
    (h : ¬ (s.cnt.toNat = 15 ∧ (elapsed ts s).toNat < 2500)) :
    edgeDecoder ts (popBuffer s) = popBuffer (edgeDecoder ts s) := by
  by_cases hlong : 2500 ≤ (elapsed ts s).toNat
  · rw [edgeDecoder_frameStart hlong, edgeDecoder_frameStart (s := popBuffer s) hlong]
    rfl
  · have hshort := Nat.not_le.1 hlong
    have hc : s.cnt ≠ 15#5 := fun hc => h ⟨(cnt_eq_fifteen_iff _).1 hc, hshort⟩
    rw [edgeDecoder_earlier hshort hc, edgeDecoder_earlier (s := popBuffer s) hshort hc]
    rfl

/-- Settles O49: the edge leaves `tail` and the slot at it alone. -/
theorem popCommutesWithQuietEdge : Obligations.PopCommutesWithQuietEdge := by
  intro s d h hquiet
  have ha : available s = true := (available_iff s).2 h
  have hcommute := edgeDecoder_popBuffer_of_quiet (ts := s.last + d) (s := s) (by rwa [elapsed_last_add])
  have hafter := (edgeDecoder_storesAtMostOne (s.last + d) (showPorts (some (s.last + d)) s)).available ha
  refine ⟨_, _, _, _, exec_pop_of_available ha, exec_edge _ _, exec_edge _ s, exec_pop_of_available hafter,
    ?_, ?_⟩ <;>
    simp only [showPorts_eq_withRecord, popBuffer_withRecord, edgeDecoder_withRecord, hcommute]
  · exact sameBlock_withRecord _ _ _ _ _ _ (popBuffer (edgeDecoder (s.last + d) s))
  · rfl

/-- Settles O48: the POP makes room for the command. -/
theorem edgePopAtFullLosesNothing : Obligations.EdgePopAtFullLosesNothing := by
  intro s d hfull hc hd
  have ha : available s = true := (available_iff_count s).2 (by omega)
  have helapsed : elapsed (s.last + d) (popBuffer (showPorts (some (s.last + d)) s)) = d := elapsed_last_add s d
  obtain ⟨hbuf, hacc, -⟩ := edgeDecoder_pushes (s := popBuffer (showPorts (some (s.last + d)) s))
    (helapsed.symm ▸ hd) hc
  refine ⟨_, _, _, exec_edgePop_of_available (s.last + d) ha, unread_eq_cons_of_available ha,
    edgeDecoder_result _ _, ?_, ?_⟩
  · rw [hbuf.unread_eq, hacc]
    exact unread_pushBuffer_of_not_full _ (count_popBuffer_ne_full ha)
  · have hcount : count (popBuffer (showPorts (some (s.last + d)) s)) + 1 = 127 := (count_popBuffer ha).trans hfull
    rw [hbuf.count_eq, count_pushBuffer, hcount]
    rfl

end Sys2Proof.Machine

/-! # What every external operation keeps, shows and hides -/

namespace Sys2Proof.Machine

/-! ### The invariants at rest (R26) -/

theorem cnt_le_of_external {i : Instr} {s t : State} (hext : isExternal i = true) (hcnt : s.cnt.toNat ≤ 15)
    (h : exec i s = .next t) : t.cnt.toNat ≤ 15 := by
  by_cases hreset : i = .reset
  · subst hreset
    cases h
    exact Nat.zero_le _
  · cases hi : edgeOf i with
    | none =>
      obtain ⟨⟨-, hsame, -⟩, -, -⟩ := sameButTail_of_no_edge hext hi hreset h
      rwa [hsame]
    | some ts =>
      obtain ⟨u, ⟨⟨-, hsame, -⟩, -, -⟩, rfl⟩ := exec_of_edgeOf hi h
      exact edgeDecoder_cnt_le ts (hsame ▸ hcnt)

theorem atRest_of_external {i : Instr} {s t : State} (hext : isExternal i = true) (hs : AtRest s)
    (h : exec i s = .next t) : AtRest t := by
  obtain ⟨hwf, hwhole⟩ := operationsKeepMemoryForm i s t hs.memWf hs.memWhole h
  exact ⟨cnt_le_of_external hext hs.cntSmall h, hwf, hwhole, (bufferMove_of_exec h).liveWritten hs.liveWritten⟩

/-- What is left to present has no part in the invariants. -/
theorem AtRest.withInputs {s : State} (hs : AtRest s) (inputs : List OpWord) : AtRest { s with inputs := inputs } :=
  ⟨hs.cntSmall, hs.memWf, hs.memWhole, hs.liveWritten⟩

/-- Settles O35: a step is an external operation, which keeps the state at rest and the words left to present. -/
theorem stepKeepsLegalState : Obligations.StepKeepsLegalState := by
  intro s t hs h
  have hkeeps {i : Instr} {inputs : List OpWord} (hext : isExternal i = true)
      (hlegal : ∀ w ∈ inputs, asksExternal w = true) (hexec : exec i { s with inputs := inputs } = .next t) :
      LegalState t := by
    obtain ⟨hinputs, -, -⟩ := showsClock_of_isExternal hext hexec
    exact ⟨atRest_of_external hext (hs.rest.withInputs inputs) hexec, hinputs ▸ hlegal⟩
  cases hin : s.inputs with
  | nil =>
    rw [step_of_no_inputs hin] at h
    exact hkeeps (i := .idle) rfl hs.external h
  | cons w rest =>
    have hlegal := hs.external
    rw [hin] at hlegal
    obtain ⟨i, hw, hext⟩ := decode_of_asksExternal (hlegal w List.mem_cons_self)
    rw [step_of_decode_ok hin hw] at h
    exact hkeeps hext (fun v hv => hlegal v (List.mem_cons_of_mem w hv)) h

/-! ### The observation port (R117, decision D20) -/

theorem cmdValid_some_iff (ts : Timestamp) (s : State) :
    cmdValid (some ts) s = true ↔ s.cnt.toNat = 15 ∧ (elapsed ts s).toNat < 2500 := by
  rw [cmdValid, Bool.and_eq_true, beq_iff_eq, cnt_eq_fifteen_iff, decide_eq_true_iff]
  rfl

/-- `{acc[14:0], bit}` is the accumulator with the bit shifted in (R57). -/
theorem append_bit_eq_shiftedIn (e : Timestamp) (v : Cmd) :
    v.extractLsb' 0 15 ++ BitVec.ofBool (bitOf e) = shiftedIn e v := by
  apply BitVec.eq_of_getLsbD_eq
  intro k hk
  cases k with
  | zero =>
    rw [BitVec.getLsbD_append, shiftedIn_getLsbD_zero]
    simp only [Nat.zero_lt_one, if_true, BitVec.getLsbD_ofBool, decide_true, Bool.true_and]
  | succ k =>
    rw [BitVec.getLsbD_append, shiftedIn_getLsbD_succ e v (by omega), if_neg (by omega), Nat.add_sub_cancel,
      BitVec.getLsbD_extractLsb', Nat.zero_add, decide_eq_true (by omega), Bool.true_and]

theorem cmdData_of_valid {ts : Timestamp} {s : State} (h : cmdValid (some ts) s = true) :
    cmdData (some ts) s = shiftedIn (elapsed ts s) s.acc :=
  (if_pos h).trans (append_bit_eq_shiftedIn (elapsed ts s) s.acc)

/-- Settles O37: the port compares what EDGE compares. -/
theorem cmdValidReportsPush : Obligations.CmdValidReportsPush := by
  intro i s t hext h
  obtain ⟨-, hports, -⟩ := showsClock_of_isExternal hext h
  rw [hports]
  cases hi : edgeOf i with
  | none =>
    refine ⟨iff_of_false Bool.false_ne_true fun ⟨hreset, hmoved⟩ => ?_,
      fun hvalid => absurd hvalid Bool.false_ne_true,
      fun _ hts => (Option.some_ne_none _ hts.symm).elim, fun _ => rfl⟩
    obtain ⟨-, hhead, -⟩ := sameButTail_of_no_edge hext hi hreset h
    exact hmoved hhead
  | some ts =>
    have hreset : i ≠ .reset := by rintro rfl; cases hi
    obtain ⟨u, ⟨⟨hlast, hcnt, hacc⟩, hhead, hmem⟩, rfl⟩ := exec_of_edgeOf hi h
    have helapsed : elapsed ts u = elapsed ts s := by rw [elapsed, elapsed, hlast]
    have hvalid := cmdValid_some_iff ts s
    refine ⟨hvalid.trans ?_, fun hpush => ?_, fun ts' hts => ?_, fun hnone => (Option.some_ne_none ts hnone).elim⟩
    · rw [← hcnt, ← helapsed, ← hhead, and_iff_right hreset]
      exact (edgeDecoder_head_ne_iff ts u).symm
    · obtain ⟨hc, hshort⟩ := hvalid.1 hpush
      rw [← hcnt] at hc
      rw [← helapsed] at hshort
      obtain ⟨hbuf, -, -⟩ := edgeDecoder_pushes hshort hc
      obtain ⟨hslot, -⟩ := result_of_push hbuf
      rw [hhead, helapsed, hacc] at hslot
      exact hslot.trans (congrArg some (cmdData_of_valid hpush).symm)
    · cases hts
      rw [← elapsed_toNat]
      exact hvalid

/-! ### Only differences of timestamps matter (R51) -/

/-- The state with its previous edge moved by an amount of time. -/
def shiftLast (shift : Timestamp) (s : State) : State := { s with last := s.last + shift }

theorem elapsed_shiftLast (ts shift : Timestamp) (s : State) :
    elapsed (ts + shift) (shiftLast shift s) = elapsed ts s :=
  add_sub_add_right_eq_sub ts s.last shift

theorem showPorts_shiftLast (ts shift : Timestamp) (s : State) :
    showPorts (some (ts + shift)) (shiftLast shift s) = shiftLast shift (showPorts (some ts) s) := by
  have hports : portsOf (some (ts + shift)) (shiftLast shift s) = portsOf (some ts) s := by
    simp only [portsOf, cmdData, cmdValid, elapsed_shiftLast]
    rfl
  rw [showPorts, hports]
  rfl

theorem edgeDecoder_shiftLast (ts shift : Timestamp) (s : State) :
    edgeDecoder (ts + shift) (shiftLast shift s) = shiftLast shift (edgeDecoder ts s) := by
  have helapsed := elapsed_shiftLast ts shift s
  by_cases hlong : 2500 ≤ (elapsed ts s).toNat
  · rw [edgeDecoder_frameStart hlong, edgeDecoder_frameStart (helapsed ▸ hlong)]
    rfl
  · have hshort := Nat.not_le.1 hlong
    have hafter : afterBit (ts + shift) (shiftLast shift s) = shiftLast shift (afterBit ts s) := by
      rw [afterBit, helapsed]
      rfl
    rw [edgeDecoder_bit hshort, edgeDecoder_bit (helapsed ▸ hshort), hafter]
    by_cases hc : s.cnt = 15#5
    · rw [if_pos hc]
      exact if_pos hc
    · rw [if_neg hc]
      exact if_neg hc

/-- Settles O38: the ports and EDGE read the interval alone, which the shift keeps. -/
theorem onlyTimeDifferencesMatter : Obligations.OnlyTimeDifferencesMatter := by
  intro s ts shift
  refine ⟨_, exec_edge ts s, ?_⟩
  have hshift := edgeDecoder_shiftLast ts shift (showPorts (some ts) s)
  rw [← showPorts_shiftLast] at hshift
  exact congrArg _ hshift

/-! ### Stale accumulator bits (R103) -/

/-- Two accumulators agree in their first `n` bits. -/
def AgreeBelow (n : Nat) (a b : Cmd) : Prop := ∀ k, k < n → a.getLsbD k = b.getLsbD k

theorem agreeBelow_shiftedIn {n : Nat} {a b : Cmd} (e : Timestamp) (hn : n ≤ 15) (h : AgreeBelow n a b) :
    AgreeBelow (n + 1) (shiftedIn e a) (shiftedIn e b) := by
  intro k hk
  cases k with
  | zero => rw [shiftedIn_getLsbD_zero, shiftedIn_getLsbD_zero]
  | succ k =>
    rw [shiftedIn_getLsbD_succ e a (by omega), shiftedIn_getLsbD_succ e b (by omega)]
    exact h k (by omega)

/-- With fifteen bits alike the next one makes the same command. -/
theorem shiftedIn_eq_of_agreeBelow {a b : Cmd} (e : Timestamp) (h : AgreeBelow 15 a b) :
    shiftedIn e a = shiftedIn e b :=
  BitVec.eq_of_getLsbD_eq fun k hk => agreeBelow_shiftedIn e (Nat.le_refl 15) h k hk

/-- The ports show nothing of the bits above `cnt`. -/
theorem showPorts_withAcc (edge : Option Timestamp) {s : State} {other : Cmd} (h : AgreeBelow s.cnt.toNat other s.acc) :
    showPorts edge { s with acc := other } = { showPorts edge s with acc := other } := by
  have hdata : cmdData edge { s with acc := other } = cmdData edge s := by
    cases edge with
    | none => rfl
    | some ts =>
      cases hvalid : cmdValid (some ts) s with
      | false =>
        have hidle (v : Cmd) : cmdData (some ts) { s with acc := v } = Config.idleCmdData s.draws :=
          if_neg (ne_true_of_eq_false hvalid)
        exact (hidle other).trans (hidle s.acc).symm
      | true =>
        obtain ⟨hc, -⟩ := (cmdValid_some_iff ts s).1 hvalid
        rw [cmdData_of_valid hvalid, cmdData_of_valid (s := { s with acc := other }) hvalid]
        exact shiftedIn_eq_of_agreeBelow _ (hc ▸ h)
  have hports : portsOf edge { s with acc := other } = portsOf edge s := by
    rw [portsOf, hdata]
    cases edge <;> rfl
  rw [showPorts, hports]
  rfl

/-- EDGE carries the difference along and loses it at the frame's end. -/
theorem edgeDecoder_withAcc (ts : Timestamp) {s : State} {other : Cmd} (hcnt : s.cnt.toNat ≤ 15)
    (h : AgreeBelow s.cnt.toNat other s.acc) :
    ∃ other', edgeDecoder ts { s with acc := other } = { edgeDecoder ts s with acc := other' } ∧
      AgreeBelow (edgeDecoder ts s).cnt.toNat other' (edgeDecoder ts s).acc := by
  by_cases hlong : 2500 ≤ (elapsed ts s).toNat
  · rw [edgeDecoder_frameStart hlong, edgeDecoder_frameStart (s := { s with acc := other }) hlong]
    exact ⟨other, rfl, fun k hk => absurd hk (Nat.not_lt_zero k)⟩
  · have hshort := Nat.not_le.1 hlong
    refine ⟨shiftedIn (elapsed ts s) other, ?_⟩
    by_cases hc : s.cnt = 15#5
    · rw [edgeDecoder_sixteenth hshort hc, edgeDecoder_sixteenth (s := { s with acc := other }) hshort hc]
      have hsame := shiftedIn_eq_of_agreeBelow (elapsed ts s) ((cnt_eq_fifteen_iff _).1 hc ▸ h)
      have hafter : afterBit ts { s with acc := other } = afterBit ts s :=
        congrArg (fun v => { s with last := ts, acc := v, cnt := s.cnt + 1#5 }) hsame
      rw [hafter, hsame]
      exact ⟨rfl, fun k hk => absurd hk (Nat.not_lt_zero k)⟩
    · rw [edgeDecoder_earlier hshort hc, edgeDecoder_earlier (s := { s with acc := other }) hshort hc]
      refine ⟨rfl, ?_⟩
      have hagree := agreeBelow_shiftedIn (elapsed ts s) hcnt h
      rwa [← cnt_succ_toNat hcnt] at hagree

/-- Both outcomes are next states that differ at most in the bits of `acc` above `cnt`. -/
def StaysAlike (o o' : Host.Outcome State Fault Refusal) : Prop :=
  ∃ t other', o = .next t ∧ o' = .next { t with acc := other' } ∧
    t.cnt.toNat ≤ 15 ∧ AgreeBelow t.cnt.toNat other' t.acc

theorem staysAlike_edgeDecoder (ts : Timestamp) {s : State} {other : Cmd} (hcnt : s.cnt.toNat ≤ 15)
    (h : AgreeBelow s.cnt.toNat other s.acc) :
    StaysAlike (.next (edgeDecoder ts s)) (.next (edgeDecoder ts { s with acc := other })) := by
  obtain ⟨other', hnext, hagree⟩ := edgeDecoder_withAcc ts hcnt h
  exact ⟨_, other', rfl, congrArg _ hnext, edgeDecoder_cnt_le ts hcnt, hagree⟩

/-- Settles O52: the ports and EDGE look at no bit above `cnt` and the other operations look at none. -/
theorem staleAccumulatorUnobservable : Obligations.StaleAccumulatorUnobservable := by
  intro i s other hext hcnt h
  have hshow (edge : Option Timestamp) := showPorts_withAcc edge h
  have hedge (ts : Timestamp) : StaysAlike (exec (.edge ts) s) (exec (.edge ts) { s with acc := other }) := by
    rw [exec_edge, exec_edge, hshow]
    exact staysAlike_edgeDecoder ts hcnt h
  have hidle : StaysAlike (exec .idle s) (exec .idle { s with acc := other }) :=
    ⟨_, other, exec_idle s, (exec_idle _).trans (congrArg _ (hshow none)), hcnt, h⟩
  cases i with
  | reset =>
    refine .inr ⟨_, 0#16, exec_reset s, ?_, Nat.zero_le _, fun k hk => rfl⟩
    rw [exec_reset, hshow]
    rfl
  | idle => exact .inr hidle
  | avail =>
    refine .inr ⟨_, other, exec_avail s, ?_, hcnt, h⟩
    rw [exec_avail, hshow]
    rfl
  | edge ts => exact .inr (hedge ts)
  | notify falling ts =>
    cases falling with
    | true => exact .inr (hedge ts)
    | false => exact .inr hidle
  | pop =>
    cases ha : available s with
    | false => exact .inl ⟨exec_pop_of_empty ha, exec_pop_of_empty ha⟩
    | true =>
      refine .inr ⟨_, other, exec_pop_of_available ha, ?_, hcnt, h⟩
      rw [exec_pop_of_available (s := { s with acc := other }) ha, hshow]
      rfl
  | edgePop ts =>
    cases ha : available s with
    | false => exact .inl ⟨exec_edgePop_of_empty ts ha, exec_edgePop_of_empty ts ha⟩
    | true =>
      rw [exec_edgePop_of_available ts ha, exec_edgePop_of_available (s := { s with acc := other }) ts ha, hshow]
      exact .inr (staysAlike_edgeDecoder ts (s := popBuffer (showPorts (some ts) s)) hcnt h)
  | symZero | symOne | symStart | emit | push | init | lookup | cmdOnOff | cmdUp | cmdDown | cmdMute | cmdLeft
  | cmdRight | cmdAv => cases hext

end Sys2Proof.Machine

/-! # Frames of bits, and the receiver the block stands for -/

namespace Sys2Proof.Machine

/-! ### The bits of a command (R55) -/

/-- The first `n` bits of an accumulator, first received first. -/
def bitsOf (n : Nat) (v : Cmd) : List Bool := (List.range n).map fun k => v.getLsbD (n - 1 - k)

theorem bitsSoFar_eq_bitsOf (s : State) : bitsSoFar s = bitsOf s.cnt.toNat s.acc := rfl

theorem bitsSoFar_of_cnt_zero {s : State} (h : s.cnt.toNat = 0) : bitsSoFar s = [] := by
  rw [bitsSoFar_eq_bitsOf, h]
  rfl

@[simp] theorem length_bitsOf (n : Nat) (v : Cmd) : (bitsOf n v).length = n := by
  simp [bitsOf]

theorem getElem_bitsOf {n k : Nat} {v : Cmd} (h : k < (bitsOf n v).length) :
    (bitsOf n v)[k] = v.getLsbD (n - 1 - k) := by
  simp [bitsOf]

/-- The bits of a value are those above its lowest one, and then that one. -/
theorem bitsOf_succ {n : Nat} {v w : Cmd} (h : ∀ k, k < n → v.getLsbD (k + 1) = w.getLsbD k) :
    bitsOf (n + 1) v = bitsOf n w ++ [v.getLsbD 0] := by
  rw [bitsOf, List.range_succ, List.map_append, List.map_singleton, Nat.add_sub_cancel, Nat.sub_self, bitsOf]
  congr 1
  refine List.map_congr_left fun k hk => ?_
  have hlt : k < n := List.mem_range.1 hk
  rw [← h (n - 1 - k) (by omega)]
  congr 1
  omega

/-- A bit shifted in is appended (R57). -/
theorem bitsOf_shiftedIn {n : Nat} (hn : n ≤ 15) (e : Timestamp) (v : Cmd) :
    bitsOf (n + 1) (shiftedIn e v) = bitsOf n v ++ [bitOf e] := by
  rw [bitsOf_succ fun k hk => shiftedIn_getLsbD_succ e v (by omega), shiftedIn_getLsbD_zero]

theorem numberOf_append_bit (bits : List Bool) (b : Bool) : numberOf (bits ++ [b]) = 2 * numberOf bits + b.toNat := by
  rw [numberOf, List.foldl_append]
  rfl

/-- The first `n` bits of an accumulator are its number modulo `2 ^ n`. -/
theorem numberOf_bitsOf (n : Nat) (v : Cmd) : numberOf (bitsOf n v) = v.toNat % 2 ^ n := by
  induction n generalizing v with
  | zero => exact (Nat.mod_one _).symm
  | succ n ih =>
    have hhalf : ∀ k, k < n → v.getLsbD (k + 1) = (v >>> 1).getLsbD k := fun k _ => by
      rw [BitVec.getLsbD_ushiftRight, Nat.add_comm]
    have hlow : (v.getLsbD 0).toNat = v.toNat % 2 := by
      rw [BitVec.getLsbD, Nat.toNat_testBit, pow_zero, Nat.div_one]
    rw [bitsOf_succ hhalf, numberOf_append_bit, ih, hlow, BitVec.toNat_ushiftRight, Nat.shiftRight_one, pow_succ',
      Nat.mod_mul, Nat.add_comm]

/-- A command is the number of its sixteen bits. -/
theorem ofNat_numberOf_bitsOf (v : Cmd) : BitVec.ofNat 16 (numberOf (bitsOf 16 v)) = v := by
  rw [numberOf_bitsOf, Nat.mod_eq_of_lt v.isLt, BitVec.ofNat_toNat, BitVec.setWidth_eq]

/-! ### The receiver (R1, R2) -/

theorem Receiver.edge_of_long {ts : Timestamp} {r : Receiver} (h : 2500 ≤ (ts - r.last).toNat) :
    r.edge ts = { r with last := ts, bits := [] } := if_pos h

theorem Receiver.edge_of_sixteenth {ts : Timestamp} {r : Receiver} (h : (ts - r.last).toNat < 2500)
    (hbits : r.bits.length = 15) : r.edge ts =
      { last := ts, bits := [],
        queue := Receiver.enqueue (BitVec.ofNat 16 (numberOf (r.bits ++ [bitOf (ts - r.last)]))) r.queue } :=
  (if_neg (Nat.not_le.2 h)).trans (if_pos (by rw [List.length_append, hbits]; rfl))

theorem Receiver.edge_of_earlier {ts : Timestamp} {r : Receiver} (h : (ts - r.last).toNat < 2500)
    (hbits : r.bits.length ≠ 15) : r.edge ts = { r with last := ts, bits := r.bits ++ [bitOf (ts - r.last)] } :=
  (if_neg (Nat.not_le.2 h)).trans (if_neg (by rw [List.length_append, List.length_singleton]; omega))

/-- An edge that adds a bit and completes no command. -/
theorem bitsSoFar_edgeDecoder {ts : Timestamp} {s : State} (hshort : (elapsed ts s).toNat < 2500)
    (hc : s.cnt.toNat < 15) : bitsSoFar (edgeDecoder ts s) = bitsSoFar s ++ [bitOf (elapsed ts s)] := by
  obtain ⟨-, hacc, hcnt⟩ := edgeDecoder_counts hshort hc.ne
  rw [bitsSoFar_eq_bitsOf, hacc, hcnt hc, bitsOf_shiftedIn hc.le, bitsSoFar_eq_bitsOf]

/-- EDGE is the receiver's edge (R97). -/
theorem receiverOf_edgeDecoder (ts : Timestamp) {s : State} (hcnt : s.cnt.toNat ≤ 15) :
    receiverOf (edgeDecoder ts s) = (receiverOf s).edge ts := by
  have hlength : (receiverOf s).bits.length = s.cnt.toNat := length_bitsOf s.cnt.toNat s.acc
  by_cases hlong : 2500 ≤ (elapsed ts s).toNat
  · rw [Receiver.edge_of_long hlong, edgeDecoder_frameStart hlong]
    rfl
  · have hshort := Nat.not_le.1 hlong
    by_cases hc : s.cnt.toNat = 15
    · obtain ⟨hbuf, -, hzero⟩ := edgeDecoder_pushes hshort hc
      have hcommand : shiftedIn (elapsed ts s) s.acc =
          BitVec.ofNat 16 (numberOf (bitsSoFar s ++ [bitOf (elapsed ts s)])) := by
        rw [bitsSoFar_eq_bitsOf, hc, ← bitsOf_shiftedIn (Nat.le_refl 15), ofNat_numberOf_bitsOf]
      rw [Receiver.edge_of_sixteenth hshort (hlength.trans hc), receiverOf, edgeDecoder_last,
        bitsSoFar_of_cnt_zero hzero, hbuf.unread_eq, unread_pushBuffer, hcommand]
      rfl
    · obtain ⟨hbuf, -, -⟩ := edgeDecoder_counts hshort hc
      rw [Receiver.edge_of_earlier hshort (hlength.symm ▸ hc), receiverOf, edgeDecoder_last,
        bitsSoFar_edgeDecoder hshort (by omega), hbuf.unread_eq]
      rfl

/-- A legal POP is the receiver's. -/
theorem receiver_pop_of_available {s : State} (h : available s = true) :
    (receiverOf s).pop = some (memRead s.tail s, receiverOf (popBuffer s)) := by
  rw [Receiver.pop, receiverOf]
  simp only [unread_eq_cons_of_available h]
  rfl

/-- The receiver cannot pop where the block faults. -/
theorem receiver_pop_of_empty {s : State} (h : available s = false) : (receiverOf s).pop = none := by
  have hempty : s.head = s.tail := by
    by_contra hne
    exact Bool.false_ne_true (h.symm.trans ((available_iff s).2 hne))
  rw [Receiver.pop, receiverOf]
  simp only [unread_eq_nil_of_empty hempty]

/-- Settles O54: EDGE is the receiver's edge, POP its pop, and EDGE_POP the one after the other. -/
theorem blockRefinesReceiver : Obligations.BlockRefinesReceiver := by
  intro i s hext hrest
  have hedge (ts : Timestamp) : receiverOf (edgeDecoder ts (showPorts (some ts) s)) = (receiverOf s).edge ts :=
    receiverOf_edgeDecoder ts (s := showPorts (some ts) s) hrest.cntSmall
  cases i with
  | reset =>
    have hempty : unread (resetBlock (showPorts none s)) = [] := unread_eq_nil_of_empty rfl
    rw [exec_reset]
    simp only [receiverOf, hempty]
    rfl
  | idle | avail => rfl
  | edge ts => exact congrArg some (hedge ts).symm
  | notify falling ts =>
    cases falling with
    | true => exact congrArg some (hedge ts).symm
    | false => rfl
  | pop =>
    cases ha : available s with
    | false =>
      rw [exec_pop_of_empty ha]
      exact congrArg (Option.map Prod.snd) (receiver_pop_of_empty ha)
    | true =>
      rw [exec_pop_of_available ha]
      exact congrArg (Option.map Prod.snd) (receiver_pop_of_available ha)
  | edgePop ts =>
    cases ha : available s with
    | false =>
      rw [exec_edgePop_of_empty ts ha]
      exact congrArg (Option.map _) (receiver_pop_of_empty ha)
    | true =>
      rw [exec_edgePop_of_available ts ha]
      have hafter := receiverOf_edgeDecoder ts (s := popBuffer (showPorts (some ts) s)) hrest.cntSmall
      simp only [hafter, Receiver.step, receiver_pop_of_available ha]
      rfl
  | symZero | symOne | symStart | emit | push | init | lookup | cmdOnOff | cmdUp | cmdDown | cmdMute | cmdLeft
  | cmdRight | cmdAv => cases hext

/-! ### A frame of sixteen bits (R55, R97) -/

theorem edgesAt_append (last : Timestamp) (ds es : List Timestamp) :
    edgesAt last (ds ++ es) = edgesAt last ds ++ edgesAt (ds.foldl (· + ·) last) es := by
  induction ds generalizing last with
  | nil => rfl
  | cons d rest ih => exact congrArg (List.cons _) (ih (last + d))

/-- The first edge of a list, at its interval after the last one. -/
theorem execAll_edgesAt_cons (s : State) (d : Timestamp) (ds : List Timestamp) :
    execAll (edgesAt s.last (d :: ds)) s =
      execAll (edgesAt (s.last + d) ds) (edgeDecoder (s.last + d) (showPorts (some (s.last + d)) s)) :=
  execAll_cons (exec_edge (s.last + d) s)

/-- Up to fifteen bits are collected, and nothing is stored. -/
theorem execAll_bits {ds : List Timestamp} {s : State} (hshort : ∀ d ∈ ds, d.toNat < 2500)
    (hroom : s.cnt.toNat + ds.length ≤ 15) : ∃ m, execAll (edgesAt s.last ds) s = .next m ∧ SameBuffer s m ∧
      m.cnt.toNat = s.cnt.toNat + ds.length ∧ m.last = ds.foldl (· + ·) s.last ∧
      bitsSoFar m = bitsSoFar s ++ ds.map bitOf := by
  induction ds generalizing s with
  | nil => exact ⟨s, rfl, .refl s, rfl, rfl, (List.append_nil _).symm⟩
  | cons d rest ih =>
    rw [List.length_cons] at hroom
    have helapsed : elapsed (s.last + d) (showPorts (some (s.last + d)) s) = d := elapsed_last_add s d
    have hd : (elapsed (s.last + d) (showPorts (some (s.last + d)) s)).toNat < 2500 :=
      helapsed.symm ▸ hshort d List.mem_cons_self
    have hlt : s.cnt.toNat < 15 := by omega
    obtain ⟨hbuf, -, hcnt⟩ := edgeDecoder_counts hd hlt.ne
    have hbits := bitsSoFar_edgeDecoder hd hlt
    have hcount := hcnt hlt
    rw [showPorts_cnt] at hcount
    rw [helapsed] at hbits
    obtain ⟨m, hrun, hsame, hcntm, hlast, hbitsm⟩ :=
      ih (s := edgeDecoder (s.last + d) (showPorts (some (s.last + d)) s))
        (fun e he => hshort e (List.mem_cons_of_mem d he)) (by omega)
    rw [edgeDecoder_last] at hrun hlast
    refine ⟨m, (execAll_edgesAt_cons s d rest).trans hrun, SameBuffer.trans hbuf hsame, ?_, hlast, ?_⟩
    · rw [hcntm, hcount, List.length_cons]
      omega
    · rw [hbitsm, hbits, List.append_assoc]
      rfl

theorem SameBuffer.pushBuffer {s t : State} (h : SameBuffer s t) (v : Cmd) :
    SameBuffer (pushBuffer v s) (pushBuffer v t) := by
  refine ⟨?_, ?_, ?_⟩
  · rw [pushBuffer_head, pushBuffer_head, h.head_eq]
  · rw [pushBuffer_tail, pushBuffer_tail, h.head_eq, h.tail_eq]
  · rw [pushBuffer_mem, pushBuffer_mem, h.head_eq, h.mem_eq]

/-- Sixteen bits from a counter at 0: fifteen store nothing, and the sixteenth stores the command they make. -/
theorem execAll_frame {ds : List Timestamp} {s : State} (hcnt : s.cnt.toNat = 0) (hlength : ds.length = 16)
    (hshort : ∀ d ∈ ds, d.toNat < 2500) :
    ∃ m t, execAll (edgesAt s.last (ds.take 15)) s = .next m ∧ SameBuffer s m ∧
      execAll (edgesAt s.last ds) s = .next t ∧ t.cnt.toNat = 0 ∧ SameBuffer (pushBuffer t.acc s) t ∧
      bitsOf 16 t.acc = ds.map bitOf := by
  have htake : (ds.take 15).length = 15 := by rw [List.length_take, hlength]; rfl
  obtain ⟨d, hdrop⟩ := List.length_eq_one_iff.1 (show (ds.drop 15).length = 1 by rw [List.length_drop, hlength])
  have hsplit : ds = ds.take 15 ++ [d] := by rw [← hdrop, List.take_append_drop]
  have hd : d.toNat < 2500 := hshort d (by rw [hsplit]; exact List.mem_append_right _ List.mem_cons_self)
  obtain ⟨m, hrun, hsame, hcntm, hlast, hbits⟩ :=
    execAll_bits (s := s) (fun e he => hshort e (List.mem_of_mem_take he)) (by rw [htake, hcnt])
  rw [htake, hcnt] at hcntm
  have helapsed : elapsed (m.last + d) (showPorts (some (m.last + d)) m) = d := elapsed_last_add m d
  obtain ⟨hbuf, hacc, hzero⟩ := edgeDecoder_pushes (s := showPorts (some (m.last + d)) m)
    (helapsed.symm ▸ hd) hcntm
  rw [helapsed] at hbuf hacc
  refine ⟨m, _, hrun, hsame, ?_, hzero, ?_, ?_⟩
  · rw [hsplit, edgesAt_append, execAll_append _ hrun, ← hlast]
    exact execAll_edgesAt_cons m d []
  · rw [hacc]
    exact (hsame.pushBuffer _).trans hbuf
  · rw [hacc, bitsOf_shiftedIn (Nat.le_refl 15), hsplit, List.map_append, showPorts_acc]
    rw [bitsSoFar_of_cnt_zero hcnt, bitsSoFar_eq_bitsOf, hcntm] at hbits
    rw [hbits]
    rfl

/-- The command of a frame as the number of its bits. -/
theorem command_eq_of_bitsOf {v : Cmd} {bits : List Bool} (h : bitsOf 16 v = bits) :
    v = BitVec.ofNat 16 (numberOf bits) := by
  rw [← h, ofNat_numberOf_bitsOf]

/-- Settles O50: the frame's sixteen bits, read off the stored command. -/
theorem sixteenBitsMakeOneCommand : Obligations.SixteenBitsMakeOneCommand := by
  intro s ds hcnt hlength hshort
  obtain ⟨m, t, hrun, hsame, hframe, hzero, hbuf, hbits⟩ := execAll_frame hcnt hlength hshort
  obtain ⟨hslot, -, -, -, hbytes⟩ := result_of_push hbuf
  refine ⟨m, t, t.acc, hrun, hsame.sameIndices, hsame.sameBytes, hframe, hzero, hbuf.head_eq, hslot, hbytes,
    fun k hk => ?_, hbuf.unread_eq.trans (unread_pushBuffer t.acc s)⟩
  have hbit := List.getElem_of_eq hbits (i := k) (by rw [length_bitsOf]; omega)
  rw [List.getElem_map] at hbit
  exact (getElem_bitsOf _).symm.trans hbit

/-- Settles O51: the frame start leaves `cnt` at 0. -/
theorem frameStartForgetsPrefix : Obligations.FrameStartForgetsPrefix := by
  intro s d ds hlong hlength hshort
  have helapsed : elapsed (s.last + d) (showPorts (some (s.last + d)) s) = d := elapsed_last_add s d
  obtain ⟨hstart, -, hcnt⟩ := edgeDecoder_restarts (s := showPorts (some (s.last + d)) s) (helapsed.symm ▸ hlong)
  obtain ⟨-, t, -, -, hframe, hzero, hbuf, hbits⟩ := execAll_frame hcnt hlength hshort
  rw [edgeDecoder_last] at hframe
  refine ⟨t, (execAll_edgesAt_cons s d ds).trans hframe, hzero, ?_⟩
  rw [hbuf.unread_eq, unread_pushBuffer, command_eq_of_bitsOf hbits, hstart.unread_eq]
  rfl

end Sys2Proof.Machine

/-! # Steps on encoded operations, from RESET to POP -/

namespace Sys2Proof.Machine

/-! ### A list of words as a list of operations (R119) -/

theorem wellFormed_of_isExternal {i : Instr} (h : isExternal i = true) : i.wellFormed = true := by
  cases i with
  | symZero | symOne | symStart => cases h
  | reset | idle | avail | pop | edge | edgePop | emit | push | init | notify | lookup | cmdOnOff | cmdUp | cmdDown
  | cmdMute | cmdLeft | cmdRight | cmdAv => rfl

theorem edgeDecoder_withInputs (ts : Timestamp) (inputs : List OpWord) (s : State) :
    edgeDecoder ts { s with inputs := inputs } = { edgeDecoder ts s with inputs := inputs } := by
  have hrecord := edgeDecoder_withRecord ts inputs s.ports s.draws s
  simpa [withRecord] using hrecord

/-- No external operation reads what is left to present. -/
theorem exec_withInputs {i : Instr} {s t : State} (inputs : List OpWord) (hext : isExternal i = true)
    (h : exec i s = .next t) : exec i { s with inputs := inputs } = .next { t with inputs := inputs } := by
  cases i with
  | reset | idle | avail => cases h; rfl
  | edge ts => cases h; exact congrArg _ (edgeDecoder_withInputs ts inputs (showPorts (some ts) s))
  | notify falling ts =>
    cases falling with
    | true => cases h; exact congrArg _ (edgeDecoder_withInputs ts inputs (showPorts (some ts) s))
    | false => cases h; rfl
  | pop =>
    obtain ⟨ha, rfl⟩ := exec_pop_eq_next h
    exact exec_pop_of_available (s := { s with inputs := inputs }) ha
  | edgePop ts =>
    obtain ⟨ha, rfl⟩ := exec_edgePop_eq_next h
    rw [exec_edgePop_of_available (s := { s with inputs := inputs }) ts ha]
    exact congrArg _ (edgeDecoder_withInputs ts inputs (popBuffer (showPorts (some ts) s)))
  | symZero | symOne | symStart | emit | push | init | lookup | cmdOnOff | cmdUp | cmdDown | cmdMute | cmdLeft
  | cmdRight | cmdAv => cases hext

/-- A run goes on from the state its first step answers. -/
theorem run_succ_of_step {M : Host.Core} {s t : M.State} (n : Nat) (h : M.step s = .next t) :
    M.run (n + 1) s = M.run n t := by
  rw [Host.Core.run, h]

/-- Steps on the words of external operations perform the operations, and leave the words after them. -/
theorem run_of_execAll {is : List Instr} {s t : State} {rest : List OpWord} (hext : ∀ i ∈ is, isExternal i = true)
    (hs : s.inputs = is.map encode ++ rest) (h : execAll is { s with inputs := rest } = .next t) :
    Host.Core.run core is.length s = .next t ∧ t.inputs = rest := by
  induction is generalizing s with
  | nil =>
    have hs' : s.inputs = rest := hs
    subst hs'
    cases h
    exact ⟨rfl, rfl⟩
  | cons i is ih =>
    have hi : isExternal i = true := hext i List.mem_cons_self
    obtain ⟨u, hu, hrun⟩ := execAll_cons_eq_next h
    obtain ⟨hinputs, -, -⟩ := showsClock_of_isExternal hi hu
    have hinputs' : u.inputs = rest := hinputs
    subst hinputs'
    have hstep : step s = .next { u with inputs := is.map encode ++ u.inputs } :=
      (step_of_decode_ok hs (decodeEncodeRoundTrip i (wellFormed_of_isExternal hi))).trans
        (exec_withInputs (s := { s with inputs := u.inputs }) (is.map encode ++ u.inputs) hi hu)
    obtain ⟨hruns, hrest⟩ := ih (s := { u with inputs := is.map encode ++ u.inputs })
      (fun j hj => hext j (List.mem_cons_of_mem i hj)) rfl hrun
    exact ⟨(run_succ_of_step (M := core) is.length hstep).trans hruns, hrest⟩

/-! ### RESET, a frame, POP (P13) -/

theorem isExternal_of_mem_edgesAt {last : Timestamp} {ds : List Timestamp} {i : Instr} (h : i ∈ edgesAt last ds) :
    isExternal i = true := by
  induction ds generalizing last with
  | nil => cases h
  | cons d rest ih =>
    rcases List.mem_cons.1 h with rfl | h
    · rfl
    · exact ih h

theorem length_edgesAt (last : Timestamp) (ds : List Timestamp) : (edgesAt last ds).length = ds.length := by
  induction ds generalizing last with
  | nil => rfl
  | cons d rest ih => exact congrArg (· + 1) (ih (last + d))

/-- A POP of the one unread command returns it and leaves the buffer empty. -/
theorem exec_pop_of_unread_singleton {s : State} {v : Cmd} (h : unread s = [v]) :
    ∃ t, exec .pop s = .next t ∧ t.result = .popped v ∧ available t = false := by
  obtain ⟨t, w, hexec, hresult, hunread⟩ := popTakesOldestUnread s (head_ne_tail_of_unread_cons h)
  obtain ⟨rfl, hrest⟩ := List.cons.inj (hunread.symm.trans h)
  exact ⟨t, hexec, hresult, available_eq_false_of_empty (head_eq_tail_of_unread_nil hrest)⟩

/-- RESET and an edge at 2500 or later leave a frame begun, with nothing unread (decision D5). -/
theorem execAll_reset_start (s : State) {start : Timestamp} (h : 2500 ≤ start.toNat) :
    ∃ u, execAll [.reset, .edge start] s = .next u ∧ u.last = start ∧ u.cnt.toNat = 0 ∧ unread u = [] := by
  have helapsed : elapsed start (showPorts (some start) (resetBlock (showPorts none s))) = start :=
    BitVec.sub_zero start
  obtain ⟨hbuf, -, hcnt⟩ := edgeDecoder_restarts (helapsed.symm ▸ h)
  exact ⟨_, rfl, edgeDecoder_last start _, hcnt, hbuf.unread_eq.trans (unread_eq_nil_of_empty rfl)⟩

/-- RESET, a frame start, sixteen bits and POP, as operations. -/
theorem execAll_reset_frame_pop (s : State) {start : Timestamp} {ds : List Timestamp} (hstart : 2500 ≤ start.toNat)
    (hlength : ds.length = 16) (hshort : ∀ d ∈ ds, d.toNat < 2500) :
    ∃ t, execAll (Instr.reset :: .edge start :: (edgesAt start ds ++ [.pop])) s = .next t ∧ available t = false ∧
      t.result = .popped (BitVec.ofNat 16 (numberOf (ds.map bitOf))) := by
  obtain ⟨u, hbegun, rfl, hcnt, hempty⟩ := execAll_reset_start s hstart
  obtain ⟨-, w, -, -, hframe, -, hbuf, hbits⟩ := execAll_frame hcnt hlength hshort
  have hunread : unread w = [w.acc] := by
    rw [hbuf.unread_eq, unread_pushBuffer, hempty]
    rfl
  obtain ⟨t, hpop, hresult, hdrained⟩ := exec_pop_of_unread_singleton hunread
  refine ⟨t, ?_, hdrained, command_eq_of_bitsOf hbits ▸ hresult⟩
  exact (execAll_append _ hbegun).trans ((execAll_append _ hframe).trans (execAll_cons hpop))

/-- Settles O53: nineteen words of external operations run as the operations themselves. -/
theorem resetFramePopReturnsCommand : Obligations.ResetFramePopReturnsCommand := by
  intro s start ds rest hstart hlength hshort hs
  obtain ⟨t, hexec, hdrained, hresult⟩ := execAll_reset_frame_pop { s with inputs := rest } hstart hlength hshort
  have hext : ∀ i ∈ Instr.reset :: .edge start :: (edgesAt start ds ++ [.pop]), isExternal i = true := by
    intro i hi
    simp only [List.mem_cons, List.mem_append, List.not_mem_nil, or_false] at hi
    rcases hi with rfl | rfl | hi | rfl
    · rfl
    · rfl
    · exact isExternal_of_mem_edgesAt hi
    · rfl
  have hsteps : (Instr.reset :: .edge start :: (edgesAt start ds ++ [.pop])).length = 19 := by
    simp [length_edgesAt, hlength]
  obtain ⟨hrun, hinputs⟩ := run_of_execAll hext hs hexec
  rw [hsteps] at hrun
  exact ⟨t, hrun, hinputs, hdrained, hresult⟩

end Sys2Proof.Machine
